-- ==== Sys2Proof/Word.lean ====
section
/-!
DEFINITION. The widths of the hardware and the closed sets of names its manual uses.

Notation of `00_scope.md` section 7: a byte is 8 bits, a word is 16 bits, bit 0 is the least
significant. Names are those of `10_state.md` (registers, pair views) and `30_encoding.md`
(operand designators, conditions, descriptors).
-/
namespace Sys2Proof

/-- A byte, 8 bits. -/
abbrev Byte := BitVec 8

/-- A word, 16 bits: register pairs, program counter, stack pointer, addresses (R9). -/
abbrev Word := BitVec 16

/-- The eight 8-bit registers: seven general ones and the flags byte F (R11, C6). -/
inductive Reg8 where
  | a | b | c | d | e | h | l | f
deriving DecidableEq, Repr

/-- The 16-bit pair views (R18 to R21). They have no storage of their own. -/
inductive Pair where
  | af | bc | de | hl
deriving DecidableEq, Repr

/-- The addressing modes that read HL: plain, post-increment HLI, post-decrement HLD (R22, R23). -/
inductive HLMode where
  | hl | hli | hld
deriving DecidableEq, Repr

/-- `ADD_OPERANDS` of R9: the registers 8-bit Add accepts (R70, D4). F is not one of them. -/
inductive AddOperand where
  | b | c | d | e | h | l | a
deriving DecidableEq, Repr

/-- `INC16_OPERANDS` of R9: the pairs 16-bit Increment accepts (R70, D5). AF and SP are not among them. -/
inductive IncOperand where
  | bc | de | hl
deriving DecidableEq, Repr

/-- The five conditions of Conditional Jump (R71). -/
inductive Cond where
  | always | nz | z | nc | c
deriving DecidableEq, Repr

/-- The instruction descriptor (R69): a closed set of variants, each with its operand designator. The
16-bit immediate of a jump is not part of it. -/
inductive Descriptor where
  | nop
  | halt
  | add (r : AddOperand)
  | inc16 (p : IncOperand)
  | jp (cc : Cond)
deriving DecidableEq, Repr

/-- The kinds of operand designator the manual lists (R70). An 8-bit immediate and HL-indirect
addressing have no user in the baseline instruction set. -/
inductive Designator where
  | reg8 (r : Reg8)
  | pair (p : Pair)
  | imm8 (v : Byte)
  | imm16 (v : Word)
  | hlIndirect (m : HLMode)
deriving DecidableEq, Repr

/-- The tag of a descriptor (R69, D21): the variant name with its operand designator, such as `ADD(B)`.
An open set, because `RECOGNISED_UNHANDLED` may name instructions outside the baseline (log 14). -/
abbrev Tag := String

end Sys2Proof
end

