-- ==== Sys2Proof/Machine/State.lean ====
section
/-!
DEFINITION. The state of the machine, the reasons a step can stop, and the state after reset
(`10_state.md`, `20_memory.md`, `60_exceptions.md`).
-/
namespace Sys2Proof.Machine

/-- The four condition flags, the storage of F (R13, R14, D20). -/
structure Flags where
  /-- Zero flag, bit 7 of F. -/
  zf : Bool
  /-- Subtract flag, bit 6 of F. -/
  nf : Bool
  /-- Half-carry flag, bit 5 of F. -/
  hf : Bool
  /-- Carry flag, bit 4 of F. -/
  cf : Bool
deriving DecidableEq, Repr

/-- The memory surface (R40): the cells that do not hold `Memory.unlisted`, addresses rising. -/
structure Memory where
  cells : List Host.Cell
deriving DecidableEq, Repr

/-- The whole state: the engine's architectural state (R10) and the memory surface it holds (R40). -/
structure State where
  /-- The general registers A, B, C, D, E, H, L (R11). -/
  a : Byte
  b : Byte
  c : Byte
  d : Byte
  e : Byte
  h : Byte
  l : Byte
  /-- The flags, of which F is a view (R13, R14). -/
  flags : Flags
  /-- The program counter (R25). -/
  pc : Word
  /-- The stack pointer (R26). -/
  sp : Word
  /-- The halted flag (R27). -/
  halted : Bool
  /-- The memory surface (R40). -/
  mem : Memory
deriving DecidableEq, Repr

/-- The two error results of a step (R140). After either, every piece of state is as before the step,
PC included (R146, D1): the outcome carries the reason alone and `stepReport` gives the state. -/
inductive Fault where
  /-- `DECODE_ERROR(byte, ext)` (R141): the byte looked up has no mapping in the active table. Raised by
  `stepWith` for an undefined plain byte and by `execPrefixed` for an extended one. Safe: the manual's
  own result, and nothing runs (log 7). -/
  | decodeError (byte : Byte) (ext : Bool)
  /-- `UNIMPLEMENTED(tag)` (R142): the opcode is recognised and has no handler. Raised by `stepWith` for a
  member of `RECOGNISED_UNHANDLED`, so never by `step`, whose set is empty. Safe (log 5). -/
  | unimplemented (tag : Tag)
deriving DecidableEq, Repr

/-- Why no instruction is executed. -/
inductive Refusal where
  /-- An instruction whose meaning the model lacks. No arm of `exec` raises it. Safe. -/
  | notModelled (mnemonic : String)
  /-- The result `HALTED` (R81, R143): a step requested while HALTED = 1 is rejected, reads nothing and
  changes nothing. Raised by `stepWith`. Safe (log 6). -/
  | halted
deriving DecidableEq, Repr

/-- What a meaning and a step answer. -/
abbrev StepOutcome := Host.Outcome State Fault Refusal

/-- The machine after `Reset` with every field of `INIT` 0 (R32, R170). The zeros are a choice of the
model's user, not of the manual (DESIGN CHOICE, unsafe, log 1); HALTED = 0 is D8; memory lists nothing
(log 2). `State.construct` is reset with any `INIT`. -/
def State.reset : State where
  a := 0
  b := 0
  c := 0
  d := 0
  e := 0
  h := 0
  l := 0
  flags := { zf := false, nf := false, hf := false, cf := false }
  pc := 0
  sp := 0
  halted := false
  mem := { cells := [] }

end Sys2Proof.Machine
end

