-- ==== Sys2Proof/Machine/Flags.lean ====
section
/-!
DEFINITION. The Flags Codec and the flags of 8-bit Add (R14 to R17, R110).
-/
namespace Sys2Proof.Machine

/-- `b2i(c) * weight` as a byte: the weight of one flag in F. -/
def flagBit (on : Bool) (weight : Byte) : Byte := if on then weight else 0

/-- `to_byte` (R15): ZF, NF, HF, CF at bits 7, 6, 5, 4, the low nibble zero. -/
def Flags.toByte (f : Flags) : Byte :=
  flagBit f.zf 0x80 + flagBit f.nf 0x40 + flagBit f.hf 0x20 + flagBit f.cf 0x10

/-- `from_byte` (R16): the low nibble is ignored. -/
def Flags.fromByte (v : Byte) : Flags where
  zf := v.getLsbD 7
  nf := v.getLsbD 6
  hf := v.getLsbD 5
  cf := v.getLsbD 4

/-- `Add8(a, v)` (R110): the exact sum is formed over the integers, then narrowed; the four flags come
from the exact sum and the low nibbles. -/
def add8 (a v : Byte) : Byte × Flags :=
  let sum := a.toNat + v.toNat
  let result := BitVec.ofNat 8 sum
  (result,
   { zf := decide (result = 0)
     nf := false
     hf := decide (15 < a.toNat % 16 + v.toNat % 16)
     cf := decide (255 < sum) })

end Sys2Proof.Machine
end

