-- ==== Sys2Proof/Machine/Bits.lean ====
section
/-!
DEFINITION. Bit fields and byte order: two bytes as a word and a word as two bytes
(`00_scope.md` section 7, concatenation).
-/
namespace Sys2Proof

/-- `hi:lo`, the word `hi * 256 + lo`. -/
def concat (hi lo : Byte) : Word := hi ++ lo

/-- `v[15:8]`. -/
def hiByte (v : Word) : Byte := v.extractLsb' 8 8

/-- `v[7:0]`. -/
def loByte (v : Word) : Byte := v.extractLsb' 0 8

end Sys2Proof
end

