-- ==== Sys2Proof/Machine/Memory.lean ====
section
/-!
DEFINITION. The memory surface and its two transactions, read and write (R5, R40 to R44).

Memory is a sorted list of the cells that differ from `Memory.unlisted`, so equal memories are equal
data. Addresses are words, so every address exists and no access fails (R41, R42).
-/
namespace Sys2Proof.Machine

/-- What an address nobody has written reads as: 0x00, "a single fixed-size zero-initialized byte
array" (R43, R56; DESIGN CHOICE of the parameter `MEM0`, log 2). -/
def Memory.unlisted : Byte := 0x00

/-- The memory nobody has seeded (R56). -/
def Memory.empty : Memory := { cells := [] }

/-- The byte a list of cells holds at an address. -/
def cellAt (a : Nat) : List Host.Cell → Byte
  | [] => Memory.unlisted
  | (k, v) :: rest => if k = a then v else cellAt a rest

/-- Put a byte at an address, keeping addresses rising. -/
def insertCell (a : Nat) (v : Byte) : List Host.Cell → List Host.Cell
  | [] => [(a, v)]
  | (k, w) :: rest =>
    if a < k then (a, v) :: (k, w) :: rest
    else if k = a then (a, v) :: rest
    else (k, w) :: insertCell a v rest

/-- Take the cells at an address out of the list. -/
def eraseCell (a : Nat) (cells : List Host.Cell) : List Host.Cell :=
  cells.filter (fun cell => cell.1 != a)

/-- `MemRead(addr, 1)` (R41): total, no side effect (log 12). -/
def Memory.read (m : Memory) (addr : Word) : Byte := cellAt addr.toNat m.cells

/-- `MemWrite(addr, 1, v)` (R42): afterwards the address holds `v` and every other is unchanged. -/
def Memory.write (m : Memory) (addr : Word) (v : Byte) : Memory :=
  { cells :=
      if v = Memory.unlisted then eraseCell addr.toNat m.cells
      else insertCell addr.toNat v m.cells }

/-- `MemRead(addr, 2)` (R44): little-endian, the second address modulo 2^16. -/
def Memory.read16 (m : Memory) (addr : Word) : Word := concat (m.read (addr + 1)) (m.read addr)

/-- The `n` bytes from an address on, modulo 2^16 (R48). -/
def Memory.window (m : Memory) (addr : Word) : Nat → List Byte
  | 0 => []
  | n + 1 => m.read addr :: m.window (addr + 1) n

/-- Store bytes at consecutive addresses modulo 2^16, the first at the lowest. -/
def Memory.writeBytes (m : Memory) (addr : Word) : List Byte → Memory
  | [] => m
  | v :: rest => (m.write addr v).writeBytes (addr + 1) rest

/-- The canonical form: addresses rising and inside the 64 KiB space, no cell equal to what an unlisted
address reads as. -/
abbrev Memory.wf (m : Memory) : Prop :=
  m.cells.Pairwise (fun x y => x.1 < y.1) ∧ ∀ cell ∈ m.cells, cell.1 < 2 ^ 16 ∧ cell.2 ≠ Memory.unlisted

end Sys2Proof.Machine
end

