-- ==== Sys2Proof/Syntax.lean ====
section
/-!
DEFINITION. The instructions: one constructor per row of `spec/opcode_table.json` (R64).
-/
namespace Sys2Proof

/-- An instruction with its operands. The register, pair or condition an opcode byte selects is part of
the constructor (R61); a jump carries its 16-bit absolute target `nn` (R63). -/
inductive Instr where
  /-- `NOP` (R100). -/
  | nop
  /-- `INC BC` (R121). -/
  | incBC
  /-- `INC DE` (R122). -/
  | incDE
  /-- `INC HL` (R123). -/
  | incHL
  /-- `HALT` (R101). -/
  | halt
  /-- `ADD A,B` (R111). -/
  | addAB
  /-- `ADD A,C` (R112). -/
  | addAC
  /-- `ADD A,D` (R113). -/
  | addAD
  /-- `ADD A,E` (R114). -/
  | addAE
  /-- `ADD A,H` (R115). -/
  | addAH
  /-- `ADD A,L` (R116). -/
  | addAL
  /-- `ADD A,A` (R117). -/
  | addAA
  /-- `JP NZ,nn` (R134). -/
  | jpNZ (nn : Word)
  /-- `JP nn` (R133). -/
  | jp (nn : Word)
  /-- `JP Z,nn` (R135). -/
  | jpZ (nn : Word)
  /-- `JP NC,nn` (R136). -/
  | jpNC (nn : Word)
  /-- `JP C,nn` (R137). -/
  | jpC (nn : Word)
  /-- The row `PREFIX`, format `PFX_OP` (R61, R62): the escape byte and the extended opcode after it.
  It is not an instruction of the baseline set (R64, R65; log 9). -/
  | prefixed (op : Byte)
deriving DecidableEq, Repr

end Sys2Proof
end

