-- ==== Sys2Proof/Machine/Operands.lean ====
section
/-!
DEFINITION. The register file and the operand forms: 8-bit registers, pair views, HL-indirect addresses,
the conditions of a jump (`10_state.md` sections 2 to 4, R57, R70, R131).
-/
namespace Sys2Proof.Machine

/-! ## 8-bit registers (R11, R17) -/

/-- `x[r]`. F is the byte of the four flags (R17). -/
def State.reg8 (s : State) : Reg8 → Byte
  | .a => s.a
  | .b => s.b
  | .c => s.c
  | .d => s.d
  | .e => s.e
  | .h => s.h
  | .l => s.l
  | .f => s.flags.toByte

/-- `x[r] <- v`. A write of F discards bits 3 to 0 (R17). -/
def State.setReg8 (s : State) (r : Reg8) (v : Byte) : State :=
  match r with
  | .a => { s with a := v }
  | .b => { s with b := v }
  | .c => { s with c := v }
  | .d => { s with d := v }
  | .e => { s with e := v }
  | .h => { s with h := v }
  | .l => { s with l := v }
  | .f => { s with flags := Flags.fromByte v }

/-! ## Pair views (R18 to R21) -/

/-- The register that is the high half of a pair (R18, R20). -/
def pairHi : Pair → Reg8
  | .af => .a
  | .bc => .b
  | .de => .d
  | .hl => .h

/-- The register that is the low half of a pair (R18, R20). -/
def pairLo : Pair → Reg8
  | .af => .f
  | .bc => .c
  | .de => .e
  | .hl => .l

/-- `x[p]`, high byte first (R18, R20). -/
def State.pair (s : State) (p : Pair) : Word := concat (s.reg8 (pairHi p)) (s.reg8 (pairLo p))

/-- `x[p] <- v`: both halves in one operation (R19, R21). -/
def State.setPair (s : State) (p : Pair) (v : Word) : State :=
  (s.setReg8 (pairHi p) (hiByte v)).setReg8 (pairLo p) (loByte v)

/-! ## HL-indirect addressing (R22, R23, R57) -/

/-- A read of HLI (R22): the value before, and HL incremented modulo 2^16. -/
def State.readHLI (s : State) : Word × State := (s.pair .hl, s.setPair .hl (s.pair .hl + 1))

/-- A read of HLD (R23): the value before, and HL decremented modulo 2^16. -/
def State.readHLD (s : State) : Word × State := (s.pair .hl, s.setPair .hl (s.pair .hl - 1))

/-- The address an HL-indirect operand would use: the value the read of HL, HLI or HLD returns (R57).
No instruction of the baseline set has such an operand (R24; log 15). -/
def State.hlAddress (s : State) : HLMode → Word × State
  | .hl => (s.pair .hl, s)
  | .hli => s.readHLI
  | .hld => s.readHLD

/-! ## Operands of the instructions (R70, R131) -/

/-- The register an Add operand names (R70). -/
def addOperandReg : AddOperand → Reg8
  | .b => .b
  | .c => .c
  | .d => .d
  | .e => .e
  | .h => .h
  | .l => .l
  | .a => .a

/-- The pair a 16-bit Increment operand names (R70). -/
def incOperandPair : IncOperand → Pair
  | .bc => .bc
  | .de => .de
  | .hl => .hl

/-- The operand designators of an instruction (R70). -/
def designators : Instr → List Designator
  | .nop | .halt | .prefixed _ => []
  | .addAB => [.reg8 .b]
  | .addAC => [.reg8 .c]
  | .addAD => [.reg8 .d]
  | .addAE => [.reg8 .e]
  | .addAH => [.reg8 .h]
  | .addAL => [.reg8 .l]
  | .addAA => [.reg8 .a]
  | .incBC => [.pair .bc]
  | .incDE => [.pair .de]
  | .incHL => [.pair .hl]
  | .jpNZ nn | .jp nn | .jpZ nn | .jpNC nn | .jpC nn => [.imm16 nn]

/-- `Cond(c, zf, cf)` on the flags of a state (R131). -/
def condHolds (cc : Cond) (f : Flags) : Bool :=
  match cc with
  | .always => true
  | .z => f.zf
  | .nz => !f.zf
  | .c => f.cf
  | .nc => !f.cf

end Sys2Proof.Machine
end

