-- ==== Sys2Proof/Machine/Ops.lean ====
section
/-!
DEFINITION. The operations the instructions share: counter, halted flag, Add, 16-bit Increment, Jump,
and raising an exception (R25, R27, R110, R120, R130, R140 to R147).
-/
namespace Sys2Proof.Machine

/-- `PC <- v` (R25). -/
def State.setPc (s : State) (v : Word) : State := { s with pc := v }

/-- The counter past `n` bytes of instruction, modulo 2^16 (R25). -/
def State.advance (s : State) (n : Word) : State := s.setPc (s.pc + n)

/-- `HALTED <- v` (R27). -/
def State.setHalted (s : State) (v : Bool) : State := { s with halted := v }

/-- The memory surface replaced. -/
def State.setMem (s : State) (m : Memory) : State := { s with mem := m }

/-- `(ZF, NF, HF, CF) <- f`. -/
def State.setFlags (s : State) (f : Flags) : State := { s with flags := f }

/-- `(x[A], ZF, NF, HF, CF) <- Add8(S.x[A], S.x[r])` (R110). -/
def State.addToA (s : State) (r : Reg8) : State :=
  let (result, flags) := add8 s.a (s.reg8 r)
  (s.setReg8 .a result).setFlags flags

/-- `x[p] <- (S.x[p] + 1) mod 2^16`, no flag written (R120). -/
def State.incPair (s : State) (p : Pair) : State := s.setPair p (s.pair p + 1)

/-- `PC <- target` when the condition holds on the flags before the step, past the three bytes of the
jump when it does not (R130, R132). -/
def State.jumpIf (s : State) (cc : Cond) (target : Word) : State :=
  if condHolds cc s.flags then s.setPc target else s.advance 3

/-- Raising an exception (R140, R145, R146): the step ends with the error result, delivered to the driver.
There is no trap entry: nothing is saved, no handler is fetched, no state is written, PC stays at the
first byte of the offending instruction. There is no return from one (R148). -/
def raise (f : Fault) : StepOutcome := .fault f

end Sys2Proof.Machine
end

