-- ==== Sys2Proof/Machine/Arith.lean ====
section
/-!
DEFINITION. The meanings of 8-bit Add (`42_add8.md`) and 16-bit Increment (`43_inc16.md`).
-/
namespace Sys2Proof.Machine

/-- `ADD A,B` (R111). -/
def execAddAB (s : State) : StepOutcome := .next ((s.addToA .b).advance 1)

/-- `ADD A,C` (R112). -/
def execAddAC (s : State) : StepOutcome := .next ((s.addToA .c).advance 1)

/-- `ADD A,D` (R113). -/
def execAddAD (s : State) : StepOutcome := .next ((s.addToA .d).advance 1)

/-- `ADD A,E` (R114). -/
def execAddAE (s : State) : StepOutcome := .next ((s.addToA .e).advance 1)

/-- `ADD A,H` (R115). -/
def execAddAH (s : State) : StepOutcome := .next ((s.addToA .h).advance 1)

/-- `ADD A,L` (R116). -/
def execAddAL (s : State) : StepOutcome := .next ((s.addToA .l).advance 1)

/-- `ADD A,A` (R117). -/
def execAddAA (s : State) : StepOutcome := .next ((s.addToA .a).advance 1)

/-- `INC BC` (R121). -/
def execIncBC (s : State) : StepOutcome := .next ((s.incPair .bc).advance 1)

/-- `INC DE` (R122). -/
def execIncDE (s : State) : StepOutcome := .next ((s.incPair .de).advance 1)

/-- `INC HL` (R123). -/
def execIncHL (s : State) : StepOutcome := .next ((s.incPair .hl).advance 1)

end Sys2Proof.Machine
end

