-- ==== Sys2Proof/Machine/Control.lean ====
section
/-!
DEFINITION. The meanings of No-op and Halt (`41_nop_halt.md`) and of the row `PREFIX` (R62, R65).

A meaning reads the state before the step, whose PC is the address of the instruction's first byte.
-/
namespace Sys2Proof.Machine

/-- `NOP` (R100). -/
def execNop (s : State) : StepOutcome := .next (s.advance 1)

/-- `HALT` (R101): HALTED is set and the counter advances past the byte (D17, C7; log 11). -/
def execHalt (s : State) : StepOutcome := .next ((s.setHalted true).advance 1)

/-- The row `PREFIX` with the extended opcode `op`: the extended table is empty, so every byte is
`DECODE_ERROR(op, true)` (R65, R87, R141). -/
def execPrefixed (op : Byte) (_s : State) : StepOutcome := raise (.decodeError op true)

end Sys2Proof.Machine
end

