-- ==== Sys2Proof/Machine/Jump.lean ====
section
/-!
DEFINITION. The meanings of Conditional Jump (`44_jump.md`). The immediate has been fetched before
dispatch (R130 "The immediate is fetched first and always"; log 8).
-/
namespace Sys2Proof.Machine

/-- `JP NZ,nn` (R134). -/
def execJpNZ (nn : Word) (s : State) : StepOutcome := .next (s.jumpIf .nz nn)

/-- `JP nn` (R133). -/
def execJp (nn : Word) (s : State) : StepOutcome := .next (s.jumpIf .always nn)

/-- `JP Z,nn` (R135). -/
def execJpZ (nn : Word) (s : State) : StepOutcome := .next (s.jumpIf .z nn)

/-- `JP NC,nn` (R136). -/
def execJpNC (nn : Word) (s : State) : StepOutcome := .next (s.jumpIf .nc nn)

/-- `JP C,nn` (R137). -/
def execJpC (nn : Word) (s : State) : StepOutcome := .next (s.jumpIf .c nn)

end Sys2Proof.Machine
end

