-- ==== Sys2Proof/Machine/Dispatch.lean ====
section
/-!
DEFINITION. Dispatch: one arm per constructor of `Instr` (R89).
-/
namespace Sys2Proof.Machine

/-- The effect of an instruction on the state before the step. -/
def exec (i : Instr) (s : State) : Host.Outcome State Fault Refusal :=
  match i with
  | .nop => Sys2Proof.Machine.execNop s
  | .incBC => Sys2Proof.Machine.execIncBC s
  | .incDE => Sys2Proof.Machine.execIncDE s
  | .incHL => Sys2Proof.Machine.execIncHL s
  | .halt => Sys2Proof.Machine.execHalt s
  | .addAB => Sys2Proof.Machine.execAddAB s
  | .addAC => Sys2Proof.Machine.execAddAC s
  | .addAD => Sys2Proof.Machine.execAddAD s
  | .addAE => Sys2Proof.Machine.execAddAE s
  | .addAH => Sys2Proof.Machine.execAddAH s
  | .addAL => Sys2Proof.Machine.execAddAL s
  | .addAA => Sys2Proof.Machine.execAddAA s
  | .jpNZ nn => Sys2Proof.Machine.execJpNZ nn s
  | .jp nn => Sys2Proof.Machine.execJp nn s
  | .jpZ nn => Sys2Proof.Machine.execJpZ nn s
  | .jpNC nn => Sys2Proof.Machine.execJpNC nn s
  | .jpC nn => Sys2Proof.Machine.execJpC nn s
  | .prefixed op => Sys2Proof.Machine.execPrefixed op s

end Sys2Proof.Machine
end

