-- ==== Sys2Proof/Config.lean ====
section
/-!
DEFINITION. What an implementation fixes: the byte assignment and the set of recognised opcodes
without a handler (`00_scope.md` R9, `92_eei_decisions.md` "Named parameters left open").

The values the manual adopts (D3, D7) are `Opcodes.lr35902` and `Config.standard` in Decode.lean.
-/
namespace Sys2Proof

/-- The opcode assignment (R64): the 17 opcode bytes and the escape byte `PREFIX`, in the order of
R64's table with the escape byte last. -/
structure Opcodes where
  nop    : Byte
  incBC  : Byte
  incDE  : Byte
  incHL  : Byte
  halt   : Byte
  addAB  : Byte
  addAC  : Byte
  addAD  : Byte
  addAE  : Byte
  addAH  : Byte
  addAL  : Byte
  addAA  : Byte
  jpNZ   : Byte
  jp     : Byte
  jpZ    : Byte
  jpNC   : Byte
  jpC    : Byte
  escape : Byte
deriving DecidableEq, Repr

/-- One member of `RECOGNISED_UNHANDLED` (R68): prefix flag, byte and tag of an opcode the decoder
recognises and no handler executes. -/
structure Unhandled where
  ext  : Bool
  byte : Byte
  tag  : Tag
deriving DecidableEq, Repr

/-- The parameters of the decoder: the opcode assignment (D3) and `RECOGNISED_UNHANDLED` (D7). -/
structure Config where
  opcodes   : Opcodes
  unhandled : List Unhandled
deriving DecidableEq, Repr

end Sys2Proof
end

