-- ==== Sys2Proof/WellFormed.lean ====
section
/-!
DEFINITION. The checks on what a user of the model supplies: the opcode assignment and
`RECOGNISED_UNHANDLED` (R64, R68), and which terms of `Instr` are instructions (R64, R65).
-/
namespace Sys2Proof

/-- The 17 opcode bytes, in the order of R64's table. -/
def Opcodes.bytes (o : Opcodes) : List Byte :=
  [o.nop, o.incBC, o.incDE, o.incHL, o.halt,
   o.addAB, o.addAC, o.addAD, o.addAE, o.addAH, o.addAL, o.addAA,
   o.jpNZ, o.jp, o.jpZ, o.jpNC, o.jpC]

/-- The constraints R64 puts on any assignment: 18 distinct bytes, and 0xFD is not among them. -/
def Opcodes.wellFormed (o : Opcodes) : Bool :=
  decide (o.escape :: o.bytes).Nodup && !(o.escape :: o.bytes).contains 0xFD

/-- One member of `RECOGNISED_UNHANDLED` is disjoint from the 17 encodings and from (false, `PREFIX`)
(R68). -/
def Unhandled.disjointFrom (u : Unhandled) (o : Opcodes) : Bool :=
  u.ext || !(o.escape :: o.bytes).contains u.byte

/-- A configuration is well formed: R64's constraints on the bytes, R68's disjointness, and one tag
at most for each (prefix flag, byte), so that `Decode` is a function of them (R66; log 5). -/
def Config.wellFormed (cfg : Config) : Bool :=
  cfg.opcodes.wellFormed
    && cfg.unhandled.all (fun u => u.disjointFrom cfg.opcodes)
    && decide (cfg.unhandled.map (fun u => (u.ext, u.byte))).Nodup

/-- Whether a term is an instruction of the baseline set: every row but `PREFIX`, whose extended table
is empty (R64 "The row `PREFIX` is not an instruction", R65). -/
def Instr.wellFormed : Instr → Bool
  | .nop | .incBC | .incDE | .incHL | .halt => true
  | .addAB | .addAC | .addAD | .addAE | .addAH | .addAL | .addAA => true
  | .jpNZ _ | .jp _ | .jpZ _ | .jpNC _ | .jpC _ => true
  | .prefixed _ => false

end Sys2Proof
end

