-- ==== Sys2Proof/Decode.lean ====
section
/-!
DEFINITION. The instruction decoder and the encoder (`30_encoding.md`).

`decodeByte` is the manual's `Decode(opcode_byte, extended)` (R66): two total tables from a byte to a
descriptor. `decodeWith` decodes a list of bytes to an `Instr` and the bytes left over. Everything is
parametric in the configuration; `Config.standard` holds the values of D3 and D7.
-/
namespace Sys2Proof

/-- The LR35902 byte values the manual adopts (R64, R62, D3; PRESUMED by the manual, log 4). -/
def Opcodes.lr35902 : Opcodes where
  nop    := 0x00
  incBC  := 0x03
  incDE  := 0x13
  incHL  := 0x23
  halt   := 0x76
  addAB  := 0x80
  addAC  := 0x81
  addAD  := 0x82
  addAE  := 0x83
  addAH  := 0x84
  addAL  := 0x85
  addAA  := 0x87
  jpNZ   := 0xC2
  jp     := 0xC3
  jpZ    := 0xCA
  jpNC   := 0xD2
  jpC    := 0xDA
  escape := 0xCB

/-- The configuration of the machine that `step` runs: the bytes of D3, and `RECOGNISED_UNHANDLED`
empty (D7; log 5). -/
def Config.standard : Config where
  opcodes   := Opcodes.lr35902
  unhandled := []

/-! ## The two tables (R60, R64, R65) -/

/-- The plain table (R64), row by row. -/
def plainTable (o : Opcodes) : List (Byte × Descriptor) :=
  [(o.nop,   .nop),
   (o.incBC, .inc16 .bc),
   (o.incDE, .inc16 .de),
   (o.incHL, .inc16 .hl),
   (o.halt,  .halt),
   (o.addAB, .add .b),
   (o.addAC, .add .c),
   (o.addAD, .add .d),
   (o.addAE, .add .e),
   (o.addAH, .add .h),
   (o.addAL, .add .l),
   (o.addAA, .add .a),
   (o.jpNZ,  .jp .nz),
   (o.jp,    .jp .always),
   (o.jpZ,   .jp .z),
   (o.jpNC,  .jp .nc),
   (o.jpC,   .jp .c)]

/-- The extended table is empty (R65, D6). -/
def extendedTable : List (Byte × Descriptor) := []

/-- The tag of the recognised opcode without a handler at (ext, b), if there is one (R68). -/
def Config.unhandledTag (cfg : Config) (ext : Bool) (b : Byte) : Option Tag :=
  (cfg.unhandled.find? (fun u => u.ext == ext && u.byte == b)).map (·.tag)

/-- What `Decode` answers: a descriptor with a handler, a recognised opcode without one, or a decode
error with the byte and the prefix flag (R66). -/
inductive Decoded where
  | descriptor (d : Descriptor)
  | unhandled (tag : Tag)
  | error (byte : Byte) (ext : Bool)
deriving DecidableEq, Repr

/-- `Decode(b, ext)` (R66): a pure, total function of its two arguments. `Decode(PREFIX, false)` is a
decode error (R76), since the escape byte has no row in the plain table. -/
def decodeByte (cfg : Config) (b : Byte) (ext : Bool) : Decoded :=
  match (if ext then extendedTable else plainTable cfg.opcodes).lookup b with
  | some d => .descriptor d
  | none =>
    match cfg.unhandledTag ext b with
    | some tag => .unhandled tag
    | none => .error b ext

/-! ## Descriptors and instructions (R61, R69, R73) -/

/-- Whether the descriptor's instruction has the format `OP_IMM16` (R61): the jumps, and only they. -/
def Descriptor.hasImm16 : Descriptor → Bool
  | .nop | .halt | .add _ | .inc16 _ => false
  | .jp _ => true

/-- The instruction a descriptor stands for once its immediate, if it has one, is `nn`. -/
def Descriptor.complete (d : Descriptor) (nn : Word) : Instr :=
  match d with
  | .nop => .nop
  | .halt => .halt
  | .add .b => .addAB
  | .add .c => .addAC
  | .add .d => .addAD
  | .add .e => .addAE
  | .add .h => .addAH
  | .add .l => .addAL
  | .add .a => .addAA
  | .inc16 .bc => .incBC
  | .inc16 .de => .incDE
  | .inc16 .hl => .incHL
  | .jp .nz => .jpNZ nn
  | .jp .always => .jp nn
  | .jp .z => .jpZ nn
  | .jp .nc => .jpNC nn
  | .jp .c => .jpC nn

/-- The descriptor of an instruction (R64, R69). The row `PREFIX` has none. -/
def Instr.descriptor : Instr → Option Descriptor
  | .nop => some .nop
  | .halt => some .halt
  | .addAB => some (.add .b)
  | .addAC => some (.add .c)
  | .addAD => some (.add .d)
  | .addAE => some (.add .e)
  | .addAH => some (.add .h)
  | .addAL => some (.add .l)
  | .addAA => some (.add .a)
  | .incBC => some (.inc16 .bc)
  | .incDE => some (.inc16 .de)
  | .incHL => some (.inc16 .hl)
  | .jpNZ _ => some (.jp .nz)
  | .jp _ => some (.jp .always)
  | .jpZ _ => some (.jp .z)
  | .jpNC _ => some (.jp .nc)
  | .jpC _ => some (.jp .c)
  | .prefixed _ => none

/-- The length of an instruction in bytes (R60, R73). -/
def Instr.length : Instr → Nat
  | .nop | .incBC | .incDE | .incHL | .halt => 1
  | .addAB | .addAC | .addAD | .addAE | .addAH | .addAL | .addAA => 1
  | .jpNZ _ | .jp _ | .jpZ _ | .jpNC _ | .jpC _ => 3
  | .prefixed _ => 2

/-- The tag of a descriptor as the manual spells it (R69). -/
def Descriptor.tag : Descriptor → Tag
  | .nop => "NOP"
  | .halt => "HALT"
  | .add .b => "ADD(B)"
  | .add .c => "ADD(C)"
  | .add .d => "ADD(D)"
  | .add .e => "ADD(E)"
  | .add .h => "ADD(H)"
  | .add .l => "ADD(L)"
  | .add .a => "ADD(A)"
  | .inc16 .bc => "INC16(BC)"
  | .inc16 .de => "INC16(DE)"
  | .inc16 .hl => "INC16(HL)"
  | .jp .always => "JP(ALWAYS)"
  | .jp .nz => "JP(NZ)"
  | .jp .z => "JP(Z)"
  | .jp .nc => "JP(NC)"
  | .jp .c => "JP(C)"

/-- The mnemonic of an instruction in the manual's assembler syntax, with `nn` for the immediate
(R64, R74). The row `PREFIX` has none. -/
def Instr.mnemonic : Instr → Option String
  | .nop => some "NOP"
  | .halt => some "HALT"
  | .addAB => some "ADD A,B"
  | .addAC => some "ADD A,C"
  | .addAD => some "ADD A,D"
  | .addAE => some "ADD A,E"
  | .addAH => some "ADD A,H"
  | .addAL => some "ADD A,L"
  | .addAA => some "ADD A,A"
  | .incBC => some "INC BC"
  | .incDE => some "INC DE"
  | .incHL => some "INC HL"
  | .jpNZ _ => some "JP NZ,nn"
  | .jp _ => some "JP nn"
  | .jpZ _ => some "JP Z,nn"
  | .jpNC _ => some "JP NC,nn"
  | .jpC _ => some "JP C,nn"
  | .prefixed _ => none

/-! ## Decoding a list of bytes -/

/-- What decoding a list of bytes answers: an instruction and the bytes after it, one of the two
rejections of R66 by name, or `truncated` when the list ends inside the instruction. -/
inductive Decoding where
  | instr (i : Instr) (rest : List Byte)
  | unhandled (tag : Tag)
  | error (byte : Byte) (ext : Bool)
  | truncated
deriving DecidableEq, Repr

/-- The extended opcode `op` after an escape byte (R62): a decode error unless the parameter set names
it (R65, R68). A byte outside that set is the row `PREFIX` with its operand; its decode error is the
meaning of that row (R65; log 9). -/
def decodeExtended (cfg : Config) (op : Byte) (rest : List Byte) : Decoding :=
  match decodeByte cfg op true with
  | .unhandled tag => .unhandled tag
  | .descriptor _ | .error _ _ => .instr (.prefixed op) rest

/-- The bytes after the opcode byte of a descriptor: the immediate, low byte first, if it has one
(R63). -/
def decodeOperands (d : Descriptor) (rest : List Byte) : Decoding :=
  if d.hasImm16 then
    match rest with
    | lo :: hi :: rest' => .instr (d.complete (concat hi lo)) rest'
    | [_] | [] => .truncated
  else .instr (d.complete 0) rest

/-- Decoding any list of bytes (R60, R62, R66). The escape byte is recognised before any table lookup,
and on the first byte only. -/
def decodeWith (cfg : Config) (bytes : List Byte) : Decoding :=
  match bytes with
  | [] => .truncated
  | b0 :: rest =>
    if b0 = cfg.opcodes.escape then
      match rest with
      | [] => .truncated
      | op :: rest' => decodeExtended cfg op rest'
    else
      match decodeByte cfg b0 false with
      | .descriptor d => decodeOperands d rest
      | .unhandled tag => .unhandled tag
      | .error b ext => .error b ext

/-- The instruction the standard machine decodes from a list of bytes, with the bytes left over. -/
def decode (bytes : List Byte) : Option (Instr × List Byte) :=
  match decodeWith Config.standard bytes with
  | .instr i rest => some (i, rest)
  | .unhandled _ | .error _ _ | .truncated => none

/-! ## The encoder -/

/-- The three bytes of a jump: opcode, low byte, high byte (R61, R63). -/
def encodeJump (opcode : Byte) (nn : Word) : List Byte := [opcode, loByte nn, hiByte nn]

/-- The bytes of an instruction, lowest address first (R60, R61, R64). -/
def encodeWith (cfg : Config) (i : Instr) : List Byte :=
  match i with
  | .nop => [cfg.opcodes.nop]
  | .incBC => [cfg.opcodes.incBC]
  | .incDE => [cfg.opcodes.incDE]
  | .incHL => [cfg.opcodes.incHL]
  | .halt => [cfg.opcodes.halt]
  | .addAB => [cfg.opcodes.addAB]
  | .addAC => [cfg.opcodes.addAC]
  | .addAD => [cfg.opcodes.addAD]
  | .addAE => [cfg.opcodes.addAE]
  | .addAH => [cfg.opcodes.addAH]
  | .addAL => [cfg.opcodes.addAL]
  | .addAA => [cfg.opcodes.addAA]
  | .jpNZ nn => encodeJump cfg.opcodes.jpNZ nn
  | .jp nn => encodeJump cfg.opcodes.jp nn
  | .jpZ nn => encodeJump cfg.opcodes.jpZ nn
  | .jpNC nn => encodeJump cfg.opcodes.jpNC nn
  | .jpC nn => encodeJump cfg.opcodes.jpC nn
  | .prefixed op => [cfg.opcodes.escape, op]

/-- The bytes of an instruction under the standard assignment (D3). -/
def encode (i : Instr) : List Byte := encodeWith Config.standard i

/-! ## The host's numbering of an instruction's bits -/

/-- Byte `k` of an instruction whose `nbits` bits are `w`, bit 0 the least significant bit of the first
byte; bits above `nbits` are 0. -/
def tableByte (nbits w k : Nat) : Byte := BitVec.ofNat 8 (w % 2 ^ nbits / 256 ^ k)

/-- The bytes of that instruction, up to the longest instruction (3 bytes, R60). -/
def tableBytes (nbits w : Nat) : List Byte :=
  [tableByte nbits w 0, tableByte nbits w 1, tableByte nbits w 2]

/-- The instruction the decoder reads from an instruction whose bits are `w`, numbered as
`spec/opcode_table.json` numbers them. -/
def decodeTableWord (nbits w : Nat) : Option Instr :=
  (decode (tableBytes nbits w)).map Prod.fst

end Sys2Proof
end

