-- ==== Sys2Proof/Machine/Fetch.lean ====
section
/-!
DEFINITION. Fetching one instruction through the memory surface (R82 to R86, R46).

The working counter of a step and the addresses read so far are a `Cursor`; it is no part of the state
(R30). The addresses are kept so that the accesses of R46 and R92 can be stated (log 17).
-/
namespace Sys2Proof.Machine

/-- The working counter `p` and the addresses read, oldest first. -/
structure Cursor where
  p : Word
  reads : List Word
deriving DecidableEq, Repr

/-- `FetchByte()` (R82). -/
def fetchByte (m : Memory) (k : Cursor) : Byte × Cursor :=
  (m.read k.p, { p := k.p + 1, reads := k.reads ++ [k.p] })

/-- `FetchWord()` (R83): the low byte, then the high byte. -/
def fetchWord (m : Memory) (k : Cursor) : Word × Cursor :=
  let (lo, k1) := fetchByte m k
  let (hi, k2) := fetchByte m k1
  (concat hi lo, k2)

/-- What a fetch ends in: an instruction to dispatch, or one of the two exceptions (R87, R88). -/
inductive Fetched where
  | instr (i : Instr)
  | unhandled (tag : Tag)
  | error (byte : Byte) (ext : Bool)
deriving DecidableEq, Repr

/-- The byte after an escape byte, looked up in the extended table (R85, R86). -/
def fetchExtended (cfg : Config) (m : Memory) (k : Cursor) : Fetched × Cursor :=
  let (op, k1) := fetchByte m k
  match decodeByte cfg op true with
  | .unhandled tag => (.unhandled tag, k1)
  | .descriptor _ | .error _ _ => (.instr (.prefixed op), k1)

/-- The immediate of a descriptor's instruction, if it has one; both bytes are read whether or not the
jump is taken (R130). -/
def fetchOperands (d : Descriptor) (m : Memory) (k : Cursor) : Fetched × Cursor :=
  if d.hasImm16 then
    let (nn, k1) := fetchWord m k
    (.instr (d.complete nn), k1)
  else (.instr (d.complete 0), k)

/-- Phase 2 of a step, from the opcode byte `b0` (R85, R86): the escape byte is compared with the first
byte only. -/
def fetchRest (cfg : Config) (m : Memory) (b0 : Byte) (k : Cursor) : Fetched × Cursor :=
  if b0 = cfg.opcodes.escape then fetchExtended cfg m k
  else
    match decodeByte cfg b0 false with
    | .descriptor d => fetchOperands d m k
    | .unhandled tag => (.unhandled tag, k)
    | .error b ext => (.error b ext, k)

/-- Phases 1 and 2 of a step (R84 to R86) and the fetch of the operands, from the counter `pc`. -/
def fetchInstr (cfg : Config) (m : Memory) (pc : Word) : Fetched × Cursor :=
  let (b0, k) := fetchByte m { p := pc, reads := [] }
  fetchRest cfg m b0 k

end Sys2Proof.Machine
end

