-- ==== Sys2Proof/Machine/Engine.lean ====
section
/-!
DEFINITION. The step of the Execution Engine (`40_step_engine.md`): halted check, fetch, decode, dispatch,
and what the driver gets back (R6, R92).
-/
namespace Sys2Proof.Machine

/-- What follows a fetch: dispatch (R89) or one of the two exceptions (R87, R88). -/
def dispatch (f : Fetched) (s : State) : StepOutcome :=
  match f with
  | .instr i => exec i s
  | .unhandled tag => raise (.unimplemented tag)
  | .error b ext => raise (.decodeError b ext)

/-- `step()` under a configuration (R80, R90). The halted check comes first (R81, R144). -/
def stepWith (cfg : Config) (s : State) : StepOutcome :=
  if s.halted then .refused .halted
  else dispatch (fetchInstr cfg s.mem s.pc).1 s

/-- The addresses a step reads, in order (R46, R92): none when the step is rejected. -/
def stepReads (cfg : Config) (s : State) : List Word :=
  if s.halted then [] else (fetchInstr cfg s.mem s.pc).2.reads

/-- The four results of a step (R6, R92). -/
inductive StepResult where
  | ok
  | halted
  | decodeError (byte : Byte) (ext : Bool)
  | unimplemented (tag : Tag)
deriving DecidableEq, Repr

/-- The result the driver gets for an outcome. The last arm is for an instruction without a meaning,
which `exec` does not have; it too is a recognised opcode without a handler (R68). -/
def resultOf : StepOutcome → StepResult
  | .next _ => .ok
  | .fault (.decodeError b ext) => .decodeError b ext
  | .fault (.unimplemented tag) => .unimplemented tag
  | .refused .halted => .halted
  | .refused _ => .unimplemented "no meaning"

/-- The state after a step that answered an outcome from state `s`: only `OK` commits (R90, R146). -/
def stateAfter (s : State) : StepOutcome → State
  | .next t => t
  | .fault _ => s
  | .refused _ => s

/-- A step as the driver sees it (R92): the state after, the result, and the addresses read. No step
writes memory (R42), so there is no list of writes. -/
structure Report where
  state : State
  result : StepResult
  reads : List Word
deriving DecidableEq, Repr

/-- One `step()` request (R6, R92). -/
def stepReport (cfg : Config) (s : State) : Report where
  state := stateAfter s (stepWith cfg s)
  result := resultOf (stepWith cfg s)
  reads := stepReads cfg s

end Sys2Proof.Machine
end

