-- ==== Sys2Proof/Machine/Platform.lean ====
section
/-!
DEFINITION. What the outside can do between steps: reset, supplier writes, observation, and placing an
instruction where the next fetch is (R7, R8, R31, R55, R170).
-/
namespace Sys2Proof.Machine

/-! ## Reset (R8, R32, R170) -/

/-- The parameter `INIT` (R9, R32): the ten fields `Reset` loads. -/
structure Init where
  a : Byte
  b : Byte
  c : Byte
  d : Byte
  e : Byte
  h : Byte
  l : Byte
  f : Byte
  pc : Word
  sp : Word
deriving DecidableEq, Repr

/-- `Reset(init)` with the memory surface the engine is given (R32, R170): nothing of a previous state is
kept, memory is not touched, F's low nibble is discarded, HALTED = 0 (D8). -/
def State.construct (init : Init) (surface : Memory) : State where
  a := init.a
  b := init.b
  c := init.c
  d := init.d
  e := init.e
  h := init.h
  l := init.l
  flags := Flags.fromByte init.f
  pc := init.pc
  sp := init.sp
  halted := false
  mem := surface

/-! ## The supplier of the memory surface (R55) -/

/-- The supplier writes one byte between steps (R31, R55; log 13). -/
def State.supplierWrite (s : State) (addr : Word) (v : Byte) : State := s.setMem (s.mem.write addr v)

/-- The instruction whose `nbits` bits are `w`, stored at PC (bits above `nbits` zero, three bytes, the
longest instruction), in a machine whose next step fetches: this stands for the supplier seeding a
program (R172; log 3). -/
def placeTableWord (s : State) (nbits w : Nat) : State :=
  (s.setMem (s.mem.writeBytes s.pc (tableBytes nbits w))).setHalted false

/-! ## Observation (R7) -/

/-- What the driver may observe. HLI and HLD are not offered (R7, D12). -/
inductive Observable where
  | reg8 (r : Reg8)
  | pair (p : Pair)
  | pc
  | sp
  | halted
deriving DecidableEq, Repr

/-- An observed value with its width. -/
inductive Observed where
  | byte (v : Byte)
  | word (v : Word)
  | bit (v : Bool)
deriving DecidableEq, Repr

/-- A read-only observation (R7). -/
def State.observe (s : State) : Observable → Observed
  | .reg8 r => .byte (s.reg8 r)
  | .pair p => .word (s.pair p)
  | .pc => .word s.pc
  | .sp => .word s.sp
  | .halted => .bit s.halted

end Sys2Proof.Machine
end

