-- ==== Sys2Proof/Machine/Step.lean ====
section
/-!
DEFINITION. One step of the standard machine, and placing its next instruction.
-/
namespace Sys2Proof.Machine

/-- One step of the machine under the standard configuration (R90, D3, D7). -/
def step (s : State) : Host.Outcome State Fault Refusal := stepWith Config.standard s

/-- `s` with the instruction whose `nbits` bits are `w` stored where `step` fetches next (log 3). -/
def State.withFetchWord (s : State) (nbits w : Nat) : State := placeTableWord s nbits w

end Sys2Proof.Machine
end

