-- ==== Sys2Proof/Machine/Driver.lean ====
section
/-!
DEFINITION. The driving loop and the end of a run (R93), and a machine with its outside: steps, resets
and supplier writes in any order (R31).
-/
namespace Sys2Proof.Machine

/-- How a run stands (R93). -/
inductive RunEnd where
  /-- The steps asked for are used up; the run goes on. -/
  | running
  /-- An `OK` step left HALTED = 1. -/
  | normal
  /-- A step ended in `DECODE_ERROR` or `UNIMPLEMENTED`, or was rejected because the run started halted
  (log 18). -/
  | stopped (result : StepResult)
deriving DecidableEq, Repr

/-- A run: the state it reached, the number of instructions executed (R156), and how it stands. -/
structure RunReport where
  state : State
  executed : Nat
  outcome : RunEnd
deriving DecidableEq, Repr

/-- At most `n` steps of the driving loop (R93). The driver's bound is its own business (R93), so `n` is an
argument. -/
def drive (cfg : Config) : Nat → State → RunReport
  | 0, s => { state := s, executed := 0, outcome := .running }
  | n + 1, s =>
    match (stepReport cfg s).result with
    | .ok =>
      if (stepReport cfg s).state.halted then
        { state := (stepReport cfg s).state, executed := 1, outcome := .normal }
      else
        { drive cfg n (stepReport cfg s).state with
          executed := (drive cfg n (stepReport cfg s).state).executed + 1 }
    | .halted => { state := (stepReport cfg s).state, executed := 0, outcome := .stopped .halted }
    | .decodeError b ext =>
      { state := (stepReport cfg s).state, executed := 0, outcome := .stopped (.decodeError b ext) }
    | .unimplemented tag =>
      { state := (stepReport cfg s).state, executed := 0, outcome := .stopped (.unimplemented tag) }

/-- What can happen to the machine (R31): a step, a reset with a memory surface, a supplier write. -/
inductive Event where
  | step
  | reset (init : Init) (surface : Memory)
  | supplierWrite (addr : Word) (v : Byte)
deriving DecidableEq, Repr

/-- The state after one event. -/
def State.after (cfg : Config) (s : State) : Event → State
  | .step => (stepReport cfg s).state
  | .reset init surface => State.construct init surface
  | .supplierWrite addr v => s.supplierWrite addr v

/-- The state after a list of events. -/
def State.afterAll (cfg : Config) (s : State) : List Event → State
  | [] => s
  | ev :: rest => (s.after cfg ev).afterAll cfg rest

end Sys2Proof.Machine
end

