-- ==== Sys2Proof/Machine/Pseudocode.lean ====
section
/-!
DEFINITION. The step as R90 writes it: one function over the state, with the working counter `p`, the
decoder of R66 and a case for each descriptor, the jump fetching its own immediate.

`stepWith` is the model; this is the manual's text beside it, so that the two can be proved equal.
-/
namespace Sys2Proof.Machine

/-- The handlers of R90's `case d of`: `T` is the state before the step with PC := p. -/
def pseudoHandle (s : State) (p : Word) (d : Descriptor) : State :=
  match d with
  | .nop => { s with pc := p }
  | .halt => { s with pc := p, halted := true }
  | .add r =>
    { s with
      pc := p
      a := (add8 s.a (s.reg8 (addOperandReg r))).1
      flags := (add8 s.a (s.reg8 (addOperandReg r))).2 }
  | .inc16 q =>
    { s with pc := p }.setPair (incOperandPair q) (s.pair (incOperandPair q) + 1)
  | .jp cc =>
    let lo := s.mem.read p
    let hi := s.mem.read (p + 1)
    { s with pc := if condHolds cc s.flags then concat hi lo else p + 1 + 1 }

/-- R90's exits after `d := Decode(op, ext)`. -/
def pseudoFinish (s : State) (p : Word) (d : Decoded) : State × StepResult :=
  match d with
  | .error b ext => (s, .decodeError b ext)
  | .unhandled tag => (s, .unimplemented tag)
  | .descriptor d => (pseudoHandle s p d, .ok)

/-- `Step(S, Mem)` (R90). -/
def pseudoStep (cfg : Config) (s : State) : State × StepResult :=
  if s.halted then (s, .halted)
  else
    let b0 := s.mem.read s.pc
    if b0 = cfg.opcodes.escape then
      pseudoFinish s (s.pc + 1 + 1) (decodeByte cfg (s.mem.read (s.pc + 1)) true)
    else pseudoFinish s (s.pc + 1) (decodeByte cfg b0 false)

end Sys2Proof.Machine
end

