-- ==== Sys2Proof/Safety.lean ====
section
/-!
DEFINITION. What claims about the machine are stated in: its invariant, a safe run, and the groups of
instructions of one shape.
-/
namespace Sys2Proof.Machine

/-- The invariant of the machine: memory is in canonical form, and F reads with its low nibble zero
(R13). -/
abbrev State.Inv (s : State) : Prop := s.mem.wf ∧ s.reg8 .f &&& 0x0F = 0

/-- An event that is a reset. -/
def Event.isReset : Event → Bool
  | .reset _ _ => true
  | .step | .supplierWrite _ _ => false

/-- A run ends normally from a state within `n` steps (R93). -/
def EndsNormally (cfg : Config) (n : Nat) (s : State) : Prop := (drive cfg n s).outcome = .normal

/-- A run meets no error within `n` steps (R93, R147): what a claim about a program proves. -/
def RunsWithoutError (cfg : Config) (n : Nat) (s : State) : Prop :=
  (drive cfg n s).outcome = .running ∨ (drive cfg n s).outcome = .normal

/-- The seven Add instructions, each with the register it adds to A (R111 to R117). -/
def addForms : List (Instr × Reg8) :=
  [(.addAB, .b), (.addAC, .c), (.addAD, .d), (.addAE, .e), (.addAH, .h), (.addAL, .l), (.addAA, .a)]

/-- The three 16-bit Increments, each with the high and the low register of its pair (R121 to R123). -/
def incForms : List (Instr × Reg8 × Reg8) :=
  [(.incBC, .b, .c), (.incDE, .d, .e), (.incHL, .h, .l)]

/-- The five jumps to `nn`, each with its condition (R133 to R137). -/
def jumpForms (nn : Word) : List (Instr × Cond) :=
  [(.jp nn, .always), (.jpNZ nn, .nz), (.jpZ nn, .z), (.jpNC nn, .nc), (.jpC nn, .c)]

/-- The opcode bytes of Add under an assignment (R111 to R117). -/
def addBytes (o : Opcodes) : List Byte :=
  [o.addAB, o.addAC, o.addAD, o.addAE, o.addAH, o.addAL, o.addAA]

/-- The opcode bytes of the jumps under an assignment (R133 to R137). -/
def jumpBytes (o : Opcodes) : List Byte := [o.jpNZ, o.jp, o.jpZ, o.jpNC, o.jpC]

/-- The `n` addresses from `pc` on, modulo 2^16. -/
def addressesFrom (pc : Word) (n : Nat) : List Word := (List.range n).map (fun k => pc + BitVec.ofNat 16 k)

end Sys2Proof.Machine
end

