-- ==== Sys2Proof/Certificates/Slice0/Obligations.lean ====
section
/-!
DEFINITION. The statements for the provers.

A statement about the step holds under EVERY configuration where it takes `cfg` as an argument, so it
does not rest on the byte values of D3 (log 4) or on the empty `RECOGNISED_UNHANDLED` (log 5).
-/
open Sys2Proof Sys2Proof.Machine

/-! ## Reset and the invariant -/

/-- `Reset(init)` loads the ten fields of `init`, F without its low nibble, and leaves memory alone (R32,
R170). HALTED = 0 is the manual's decision D8. -/
def Obligations.ResetLoadsInit : Prop :=
  ∀ (init : Init) (surface : Memory),
    let s := State.construct init surface
    s.a = init.a ∧ s.b = init.b ∧ s.c = init.c ∧ s.d = init.d ∧ s.e = init.e ∧ s.h = init.h ∧ s.l = init.l
      ∧ s.flags.zf = init.f.getLsbD 7 ∧ s.flags.nf = init.f.getLsbD 6
      ∧ s.flags.hf = init.f.getLsbD 5 ∧ s.flags.cf = init.f.getLsbD 4
      ∧ s.reg8 .f = init.f &&& 0xF0
      ∧ s.pc = init.pc ∧ s.sp = init.sp ∧ s.halted = false ∧ s.mem = surface

/-- The one fixed reset state is `Reset` with all ten fields 0 over a zeroed memory. The zeros are the
model's choice (log 1, log 2), which R32 allows. -/
def Obligations.ResetStateIsAllZero : Prop :=
  State.reset = State.construct ⟨0, 0, 0, 0, 0, 0, 0, 0, 0, 0⟩ Memory.empty
    ∧ (∀ r, State.reset.reg8 r = 0) ∧ (∀ p, State.reset.pair p = 0)
    ∧ State.reset.pc = 0 ∧ State.reset.sp = 0 ∧ State.reset.halted = false
    ∧ ∀ addr, State.reset.mem.read addr = 0

/-- The invariant holds at reset, and after `Reset(init)` over any canonical memory. -/
def Obligations.InvariantAtReset : Prop :=
  State.reset.Inv ∧ ∀ (init : Init) (surface : Memory), surface.wf → (State.construct init surface).Inv

/-- Every step that answers a next state keeps the invariant: memory stays canonical and F reads with its
low nibble zero (R13). -/
def Obligations.StepKeepsInvariant : Prop :=
  ∀ s t : State, step s = .next t → s.Inv → t.Inv

/-- Every sequence of steps, supplier writes and resets over canonical memories keeps the invariant (R13,
R31, R55). -/
def Obligations.EventsKeepInvariant : Prop :=
  ∀ (cfg : Config) (events : List Event) (s : State), s.Inv →
    (∀ init surface, Event.reset init surface ∈ events → surface.wf) → (s.afterAll cfg events).Inv

/-! ## Flags, registers and pairs -/

/-- R15: the forward direction of the Flags Codec. -/
def Obligations.FlagsToByteIsWeightedSum : Prop :=
  ∀ f : Flags,
    f.toByte.toNat = f.zf.toNat * 0x80 + f.nf.toNat * 0x40 + f.hf.toNat * 0x20 + f.cf.toNat * 0x10
      ∧ f.toByte &&& 0x0F = 0
      ∧ ∀ g : Flags, f.toByte = g.toByte → f = g

/-- R16: the reverse direction of the Flags Codec, and both round trips. The last clause is the sentence
R16 marks as the spec's own inference, "derived: from rules R15 and R16". -/
def Obligations.FlagsFromByteIgnoresLowNibble : Prop :=
  (∀ v : Byte, Flags.fromByte v
      = { zf := v.getLsbD 7, nf := v.getLsbD 6, hf := v.getLsbD 5, cf := v.getLsbD 4 })
    ∧ (∀ v : Byte, Flags.fromByte v = Flags.fromByte (v &&& 0xF0))
    ∧ (∀ f : Flags, Flags.fromByte f.toByte = f)
    ∧ ∀ v : Byte, (Flags.fromByte v).toByte = v &&& 0xF0

/-- Reads and writes of F as a byte (R13, R17): the low nibble is dropped, and nothing else is written. -/
def Obligations.FRegisterMasksLowNibble : Prop :=
  ∀ (s : State) (v : Byte),
    s.reg8 .f = s.flags.toByte
      ∧ (s.setReg8 .f v).flags = Flags.fromByte v
      ∧ (s.setReg8 .f v).reg8 .f = v &&& 0xF0
      ∧ (s.setReg8 .f v).reg8 .f &&& 0x0F = 0
      ∧ (∀ r, r ≠ .f → (s.setReg8 .f v).reg8 r = s.reg8 r)
      ∧ (s.setReg8 .f v).pc = s.pc ∧ (s.setReg8 .f v).sp = s.sp
      ∧ (s.setReg8 .f v).halted = s.halted ∧ (s.setReg8 .f v).mem = s.mem

/-- R18: the pair views are composed high byte first. -/
def Obligations.PairReadIsHighByteFirst : Prop :=
  ∀ s : State,
    (s.pair .bc).toNat = s.b.toNat * 256 + s.c.toNat
      ∧ (s.pair .de).toNat = s.d.toNat * 256 + s.e.toNat
      ∧ (s.pair .hl).toNat = s.h.toNat * 256 + s.l.toNat

/-- R19: a write of BC, DE or HL writes both halves, reads back exactly, and changes nothing else. -/
def Obligations.PairWriteSetsBothHalves : Prop :=
  ∀ (s : State) (v : Word), ∀ row ∈ [(Pair.bc, Reg8.b, Reg8.c), (Pair.de, .d, .e), (Pair.hl, .h, .l)],
    let t := s.setPair row.1 v
    (t.reg8 row.2.1).toNat = v.toNat / 256 ∧ (t.reg8 row.2.2).toNat = v.toNat % 256
      ∧ t.pair row.1 = v
      ∧ (∀ q, q ≠ row.2.1 → q ≠ row.2.2 → t.reg8 q = s.reg8 q)
      ∧ t.flags = s.flags ∧ t.pc = s.pc ∧ t.sp = s.sp ∧ t.halted = s.halted ∧ t.mem = s.mem

/-- R20: AF reads as A and F, the low nibble zero. -/
def Obligations.AfReadMasksLowNibble : Prop :=
  ∀ s : State,
    (s.pair .af).toNat = s.a.toNat * 256 + (s.reg8 .f &&& 0xF0).toNat
      ∧ (s.pair .af).toNat = s.a.toNat * 256 + s.flags.toByte.toNat
      ∧ s.pair .af &&& 0x000F = 0

/-- A write of AF sets A and the flags, discards bits 3 to 0, and reads back masked (R21). -/
def Obligations.AfWriteMasksLowNibble : Prop :=
  ∀ (s : State) (v : Word),
    (s.setPair .af v).a.toNat = v.toNat / 256
      ∧ (s.setPair .af v).flags = Flags.fromByte (BitVec.ofNat 8 (v.toNat % 256))
      ∧ (s.setPair .af v).pair .af = v &&& 0xFFF0
      ∧ (∀ q, q ≠ .a → q ≠ .f → (s.setPair .af v).reg8 q = s.reg8 q)
      ∧ (s.setPair .af v).pc = s.pc ∧ (s.setPair .af v).sp = s.sp
      ∧ (s.setPair .af v).halted = s.halted ∧ (s.setPair .af v).mem = s.mem

/-- R22: a read of HLI returns HL and increments it, with the manual's example. -/
def Obligations.HliReadsThenIncrements : Prop :=
  ∀ s : State,
    s.readHLI.1 = s.pair .hl
      ∧ (s.readHLI.2.pair .hl).toNat = ((s.pair .hl).toNat + 1) % 2 ^ 16
      ∧ (∀ q, q ≠ .h → q ≠ .l → s.readHLI.2.reg8 q = s.reg8 q)
      ∧ s.readHLI.2.flags = s.flags ∧ s.readHLI.2.pc = s.pc ∧ s.readHLI.2.sp = s.sp
      ∧ s.readHLI.2.halted = s.halted ∧ s.readHLI.2.mem = s.mem
      ∧ (s.pair .hl = 0xFFFF → s.readHLI.1 = 0xFFFF ∧ s.readHLI.2.pair .hl = 0x0000)

/-- R23: a read of HLD returns HL and decrements it, with the manual's example. -/
def Obligations.HldReadsThenDecrements : Prop :=
  ∀ s : State,
    s.readHLD.1 = s.pair .hl
      ∧ ((s.readHLD.2.pair .hl).toNat : Int) = (((s.pair .hl).toNat : Int) - 1) % 2 ^ 16
      ∧ (∀ q, q ≠ .h → q ≠ .l → s.readHLD.2.reg8 q = s.reg8 q)
      ∧ s.readHLD.2.flags = s.flags ∧ s.readHLD.2.pc = s.pc ∧ s.readHLD.2.sp = s.sp
      ∧ s.readHLD.2.halted = s.halted ∧ s.readHLD.2.mem = s.mem
      ∧ (s.pair .hl = 0x0000 → s.readHLD.1 = 0x0000 ∧ s.readHLD.2.pair .hl = 0xFFFF)

/-! ## Memory -/

/-- A write is read back and every other location is unchanged, in every memory, canonical or not (R41,
R42). -/
def Obligations.ReadAfterWrite : Prop :=
  ∀ (m : Memory) (addr other : Word) (v : Byte),
    (m.write addr v).read other = if other = addr then v else m.read other

/-- Two canonical memories that read alike are the same data (the model's form of memory, log 2). -/
def Obligations.CanonicalMemoriesThatReadAlikeAreEqual : Prop :=
  ∀ m n : Memory, m.wf → n.wf → (∀ addr, m.read addr = n.read addr) → m = n

/-- The 16-bit read is little-endian and wraps at the top of memory (R44, R48). -/
def Obligations.WordReadIsLittleEndian : Prop :=
  (∀ (m : Memory) (addr : Word),
      (m.read16 addr).toNat = (m.read (addr + 1)).toNat * 256 + (m.read addr).toNat)
    ∧ (∀ m : Memory, (m.read16 0xFFFF).toNat = (m.read 0x0000).toNat * 256 + (m.read 0xFFFF).toNat)
    ∧ ∀ (m : Memory) (addr : Word), m.read addr = 0x34 → m.read (addr + 1) = 0x12 → m.read16 addr = 0x1234

/-- R82 and R83: fetch-byte reads at the counter and advances it by 1; fetch-word reads two bytes, the low
one first, and advances it by 2, modulo 2^16. The low-then-high order is what R83 marks as derived from
R82, and the list of reads is the model's own record (DEDUCED, log 17). -/
def Obligations.FetchByteAndFetchWord : Prop :=
  ∀ (m : Memory) (k : Cursor),
    (fetchByte m k).1 = m.read k.p ∧ (fetchByte m k).2.p.toNat = (k.p.toNat + 1) % 2 ^ 16
      ∧ (fetchByte m k).2.reads = k.reads ++ [k.p]
      ∧ (fetchWord m k).1.toNat = (m.read (k.p + 1)).toNat * 256 + (m.read k.p).toNat
      ∧ (fetchWord m k).2.p.toNat = (k.p.toNat + 2) % 2 ^ 16
      ∧ (fetchWord m k).2.reads = k.reads ++ [k.p, k.p + 1]

/-! ## Decoder and encoder -/

/-- The decoder under the bytes of D3 (log 4, log 20): 17 plain bytes decode, every other plain byte and
every extended byte is a decode error with that byte and that prefix flag (R64, R65, R67, R76; D6, log 16;
D7, log 5). -/
def Obligations.StandardTablesDecode : Prop :=
  (∀ row ∈ [((0x00 : Byte), Descriptor.nop), (0x03, .inc16 .bc), (0x13, .inc16 .de), (0x23, .inc16 .hl),
        (0x76, .halt), (0x80, .add .b), (0x81, .add .c), (0x82, .add .d), (0x83, .add .e), (0x84, .add .h),
        (0x85, .add .l), (0x87, .add .a), (0xC2, .jp .nz), (0xC3, .jp .always), (0xCA, .jp .z),
        (0xD2, .jp .nc), (0xDA, .jp .c)],
      decodeByte Config.standard row.1 false = .descriptor row.2)
    ∧ (∀ b : Byte, b ∉ [(0x00 : Byte), 0x03, 0x13, 0x23, 0x76, 0x80, 0x81, 0x82, 0x83, 0x84, 0x85, 0x87,
        0xC2, 0xC3, 0xCA, 0xD2, 0xDA] → decodeByte Config.standard b false = .error b false)
    ∧ ∀ b : Byte, decodeByte Config.standard b true = .error b true

/-- R66: `Decode` is total and its three answers are the plain row, the recognised opcode without a
handler, and the decode error with the byte and prefix flag asked about. Its second clause rests on the
spec's decisions and the model's: the escape byte asked about in the plain table is a decode error (D16,
log 20); no extended byte, and no plain byte beyond the 17, has an instruction (D6, log 16);
`RECOGNISED_UNHANDLED` is a parameter (D7) with one tag for each prefix flag and byte (DEDUCED, log 5). -/
def Obligations.DecodeIsTotal : Prop :=
  ∀ cfg : Config, cfg.wellFormed = true →
    let o := cfg.opcodes
    let plain := [(o.nop, Descriptor.nop), (o.incBC, .inc16 .bc), (o.incDE, .inc16 .de), (o.incHL, .inc16 .hl),
      (o.halt, .halt), (o.addAB, .add .b), (o.addAC, .add .c), (o.addAD, .add .d), (o.addAE, .add .e),
      (o.addAH, .add .h), (o.addAL, .add .l), (o.addAA, .add .a), (o.jpNZ, .jp .nz), (o.jp, .jp .always),
      (o.jpZ, .jp .z), (o.jpNC, .jp .nc), (o.jpC, .jp .c)]
    (∀ row ∈ plain, decodeByte cfg row.1 false = .descriptor row.2)
      ∧ ∀ (b : Byte) (ext : Bool), ¬(ext = false ∧ b ∈ plain.map Prod.fst) →
          (∀ u ∈ cfg.unhandled, u.ext = ext → u.byte = b → decodeByte cfg b ext = .unhandled u.tag)
            ∧ ((∀ u ∈ cfg.unhandled, ¬(u.ext = ext ∧ u.byte = b)) → decodeByte cfg b ext = .error b ext)

/-- A few words written out from R64 and R63 (log 4): a sanity statement. -/
def Obligations.KnownWordsDecode : Prop :=
  decode [0x00] = some (.nop, [])
    ∧ decode [0x76, 0x00] = some (.halt, [0x00])
    ∧ decode [0x84] = some (.addAH, [])
    ∧ decode [0x13] = some (.incDE, [])
    ∧ decode [0xC2, 0x34, 0x12, 0xFF] = some (.jpNZ 0x1234, [0xFF])
    ∧ decode [0xCB, 0x37] = some (.prefixed 0x37, [])
    ∧ decode [0xFD] = none
    ∧ decode [0xC3, 0x34] = none

/-- Decode and encode agree: under every well-formed assignment, every instruction with every operand
decodes from its own bytes, whatever follows; an extended opcode the parameter set names decodes to its
tag. -/
def Obligations.DecodeOfEncode : Prop :=
  ∀ cfg : Config, cfg.wellFormed = true → ∀ (i : Instr) (rest : List Byte),
    ((∀ op, i = .prefixed op → cfg.unhandledTag true op = none) →
        decodeWith cfg (encodeWith cfg i ++ rest) = .instr i rest)
      ∧ ∀ op tag, i = .prefixed op → cfg.unhandledTag true op = some tag →
        decodeWith cfg (encodeWith cfg i ++ rest) = .unhandled tag

/-- Each word has one meaning: what decodes to an instruction is that instruction's encoding followed by
the bytes left over. -/
def Obligations.EncodeOfDecode : Prop :=
  ∀ (cfg : Config) (bytes : List Byte) (i : Instr) (rest : List Byte),
    decodeWith cfg bytes = .instr i rest → bytes = encodeWith cfg i ++ rest

/-! ## The step -/

/-- A step of a running machine runs the instruction decoded from the bytes at PC: `step` adds nothing
around `exec` (it is `exec` that moves PC), and it reads exactly that instruction's bytes, in order. -/
def Obligations.StepRunsTheDecodedInstruction : Prop :=
  ∀ (s : State) (n : Nat) (i : Instr) (rest : List Byte), s.halted = false →
    decodeWith Config.standard (s.mem.window s.pc n) = .instr i rest →
      step s = exec i s ∧ stepReads Config.standard s = addressesFrom s.pc i.length

/-- Placing a table word and stepping runs the instruction the decoder reads from it (log 3). -/
def Obligations.PlacedWordIsTheNextInstruction : Prop :=
  ∀ (s : State) (nbits w : Nat) (i : Instr), decodeTableWord nbits w = some i →
    step (s.withFetchWord nbits w) = exec i (s.withFetchWord nbits w)

/-- A step requested while HALTED = 1 is rejected with result `HALTED`, reads nothing and changes nothing,
whatever the memory holds (R81, R143, R144). The rejection is the manual's decision D2 (log 6). -/
def Obligations.HaltedStepIsRejected : Prop :=
  ∀ (cfg : Config) (s : State), s.halted = true →
    stepWith cfg s = .refused .halted ∧ stepReport cfg s = { state := s, result := .halted, reads := [] }

/-- A plain byte without a mapping ends the step in `DECODE_ERROR(byte, false)` with one read and nothing
committed, PC included (R87, R146; PC is the manual's decision D1, log 7). -/
def Obligations.UndefinedByteIsDecodeError : Prop :=
  ∀ (cfg : Config) (s : State), s.halted = false → s.mem.read s.pc ≠ cfg.opcodes.escape →
    s.mem.read s.pc ∉ cfg.opcodes.bytes → cfg.unhandledTag false (s.mem.read s.pc) = none →
      stepWith cfg s = .fault (.decodeError (s.mem.read s.pc) false)
        ∧ stepReport cfg s
          = { state := s, result := .decodeError (s.mem.read s.pc) false, reads := [s.pc] }

/-- After the escape byte the byte at PC + 1 is looked up in the extended table: `DECODE_ERROR(op, true)`
with two reads and nothing committed (R62, R65, R85, R141; D1, log 7). -/
def Obligations.EscapedByteIsDecodeError : Prop :=
  ∀ (cfg : Config) (s : State), s.halted = false → s.mem.read s.pc = cfg.opcodes.escape →
    cfg.unhandledTag true (s.mem.read (s.pc + 1)) = none →
      stepWith cfg s = .fault (.decodeError (s.mem.read (s.pc + 1)) true)
        ∧ stepReport cfg s
          = { state := s, result := .decodeError (s.mem.read (s.pc + 1)) true,
              reads := [s.pc, s.pc + 1] }

/-- The row `PREFIX` stops on every path with `DECODE_ERROR(op, true)` (R65; log 9). -/
def Obligations.PrefixedAlwaysStops : Prop :=
  ∀ (op : Byte) (s : State), exec (.prefixed op) s = .fault (.decodeError op true)

/-- A recognised opcode without a handler ends the step in `UNIMPLEMENTED(tag)`, nothing committed (R68,
R88, R142; D1, log 5, log 7). -/
def Obligations.UnhandledOpcodeIsUnimplemented : Prop :=
  ∀ (cfg : Config) (s : State) (u : Unhandled), cfg.wellFormed = true → u ∈ cfg.unhandled →
    s.halted = false →
      (u.ext = false → s.mem.read s.pc = u.byte →
        stepWith cfg s = .fault (.unimplemented u.tag)
          ∧ stepReport cfg s = { state := s, result := .unimplemented u.tag, reads := [s.pc] })
      ∧ (u.ext = true → s.mem.read s.pc = cfg.opcodes.escape → s.mem.read (s.pc + 1) = u.byte →
        stepWith cfg s = .fault (.unimplemented u.tag)
          ∧ stepReport cfg s
            = { state := s, result := .unimplemented u.tag, reads := [s.pc, s.pc + 1] })

/-- Every result but `OK` leaves the whole state as it was, and asking again gives the same answer (R91,
R92, R146, R147; D1, D10, log 7). -/
def Obligations.OnlyOkCommits : Prop :=
  ∀ (cfg : Config) (s : State), (stepReport cfg s).result ≠ .ok →
    (stepReport cfg s).state = s ∧ stepReport cfg (stepReport cfg s).state = stepReport cfg s

/-- What `step` can answer: a next state, a decode error, or the rejection of a halted machine; never an
arithmetic, memory or alignment fault (R140), and never an instruction without a meaning. -/
def Obligations.StepAnswersAreTheManuals : Prop :=
  ∀ s : State,
    (s.halted = true ∧ step s = .refused .halted)
      ∨ (s.halted = false ∧ ((∃ t, step s = .next t) ∨ ∃ b ext, step s = .fault (.decodeError b ext)))

/-- After a decode error the supplier may write Halt over the byte at PC and the step then succeeds (R53,
R148). The byte 0x76 is D3 (log 4), PC after Halt is D17 (log 11). -/
def Obligations.SupplierRecoversFromDecodeError : Prop :=
  ∀ (s : State) (b : Byte) (ext : Bool),
    (stepReport Config.standard s).result = .decodeError b ext →
      let u := (stepReport Config.standard s).state.supplierWrite s.pc 0x76
      stepReport Config.standard u
        = { state := { u with halted := true, pc := s.pc + 1 }, result := .ok, reads := [s.pc] }

/-- The modelled step is the manual's pseudocode `Step(S, Mem)` (R90): the same state and the same result
in every state, under every configuration. -/
def Obligations.StepIsThePseudocode : Prop :=
  ∀ (cfg : Config) (s : State), ((stepReport cfg s).state, (stepReport cfg s).result) = pseudoStep cfg s

/-- The accesses of a step that is not rejected (R46): the opcode byte; after the escape byte one more; for
a jump both immediate bytes, taken or not; in address order, modulo 2^16. -/
def Obligations.StepReadsInOrder : Prop :=
  ∀ (cfg : Config) (s : State), cfg.wellFormed = true → s.halted = false →
    (s.mem.read s.pc = cfg.opcodes.escape → stepReads cfg s = [s.pc, s.pc + 1])
      ∧ (s.mem.read s.pc ∈ jumpBytes cfg.opcodes → stepReads cfg s = [s.pc, s.pc + 1, s.pc + 2])
      ∧ (s.mem.read s.pc ≠ cfg.opcodes.escape → s.mem.read s.pc ∉ jumpBytes cfg.opcodes →
          stepReads cfg s = [s.pc])

/-- A step depends on memory only through the bytes it reads: replace memory by any that agrees there, and
the result, the reads and the engine's state after are the same (R29, R91). -/
def Obligations.StepDependsOnlyOnBytesRead : Prop :=
  ∀ (cfg : Config) (s : State) (m : Memory),
    (∀ addr ∈ stepReads cfg s, m.read addr = s.mem.read addr) →
      stepReport cfg (s.setMem m)
        = { stepReport cfg s with state := (stepReport cfg s).state.setMem m }

/-- No step writes memory (R42, R46). -/
def Obligations.StepNeverWritesMemory : Prop :=
  ∀ (cfg : Config) (s : State),
    (stepReport cfg s).state.mem = s.mem
      ∧ ∀ addr, (stepReport cfg s).state.mem.read addr = s.mem.read addr

/-! ## The instructions: effect and completion -/

/-- `NOP` completes and changes only PC (R100). -/
def Obligations.NopAdvancesPc : Prop :=
  ∀ s : State, exec .nop s = .next { s with pc := s.pc + 1 }

/-- `HALT` completes, sets HALTED and advances PC, and changes nothing else (R101; PC is D17, log 11). -/
def Obligations.HaltSetsHalted : Prop :=
  ∀ s : State, exec .halt s = .next { s with halted := true, pc := s.pc + 1 }

/-- The seven Adds complete from every state, with A, the four flags and PC by R110's formulas and nothing
else changed: `addAB`, `addAC`, `addAD`, `addAE`, `addAH`, `addAL`, `addAA` (R110 to R117). -/
def Obligations.AddComputesSumAndFlags : Prop :=
  ∀ (s : State), ∀ row ∈ [(Instr.addAB, s.b), (.addAC, s.c), (.addAD, s.d), (.addAE, s.e), (.addAH, s.h),
      (.addAL, s.l), (.addAA, s.a)],
    exec row.1 s = .next { s with
      a := BitVec.ofNat 8 ((s.a.toNat + row.2.toNat) % 256)
      flags := {
        zf := decide ((s.a.toNat + row.2.toNat) % 256 = 0)
        nf := false
        hf := decide (s.a.toNat % 16 + row.2.toNat % 16 > 15)
        cf := decide (s.a.toNat + row.2.toNat > 255) }
      pc := s.pc + 1 }

/-- R110: a step at the opcode byte of an Add, under every well-formed assignment: result `OK`, one read,
A and the four flags by the formulas from the state before, PC advanced, all else unchanged. -/
def Obligations.StepAtAddByte : Prop :=
  ∀ (cfg : Config) (s : State), cfg.wellFormed = true → s.halted = false →
    ∀ row ∈ [(cfg.opcodes.addAB, s.b), (cfg.opcodes.addAC, s.c), (cfg.opcodes.addAD, s.d),
        (cfg.opcodes.addAE, s.e), (cfg.opcodes.addAH, s.h), (cfg.opcodes.addAL, s.l),
        (cfg.opcodes.addAA, s.a)],
      s.mem.read s.pc = row.1 →
        stepReport cfg s
          = { state := { s with
                a := BitVec.ofNat 8 ((s.a.toNat + row.2.toNat) % 256)
                flags := {
                  zf := decide ((s.a.toNat + row.2.toNat) % 256 = 0)
                  nf := false
                  hf := decide (s.a.toNat % 16 + row.2.toNat % 16 > 15)
                  cf := decide (s.a.toNat + row.2.toNat > 255) }
                pc := s.pc + 1 }
              result := .ok
              reads := [s.pc] }

/-- The carries of Add seen from the result: HF is the carry into bit 4, CF says the result wrapped; for
`ADD A,A` HF is bit 3 and CF bit 7 of the old A (R110 (d), (f); R118). -/
def Obligations.AddCarriesFromResult : Prop :=
  (∀ a v : Byte,
      (add8 a v).2.hf = (a ^^^ v ^^^ (add8 a v).1).getLsbD 4
        ∧ ((add8 a v).2.cf = true ↔ (add8 a v).1.toNat < a.toNat)
        ∧ add8 a v = add8 v a)
    ∧ ∀ s t : State, exec .addAA s = .next t →
        t.a.toNat = 2 * s.a.toNat % 256 ∧ t.flags.hf = s.a.getLsbD 3 ∧ t.flags.cf = s.a.getLsbD 7

/-- The frame of Add: B, C, D, E, H, L, SP, HALTED and every byte of memory are unchanged (R110). -/
def Obligations.AddFrame : Prop :=
  ∀ (s t : State), ∀ row ∈ addForms, exec row.1 s = .next t →
    (∀ r, r ≠ .a → r ≠ .f → t.reg8 r = s.reg8 r)
      ∧ t.sp = s.sp ∧ t.halted = s.halted ∧ ∀ addr, t.mem.read addr = s.mem.read addr

/-- `incBC`, `incDE` and `incHL` complete from every state: the pair is incremented modulo 2^16, the high
half changes only when the low half was 0xFF, PC advances, and every flag, every other register, SP,
HALTED and every byte of memory are unchanged (R120 to R123). -/
def Obligations.IncrementsPairAndNoFlag : Prop :=
  ∀ s : State, ∀ row ∈ [(Instr.incBC, Reg8.b, Reg8.c), (.incDE, .d, .e), (.incHL, .h, .l)],
    ∃ t, exec row.1 s = .next t
      ∧ (t.reg8 row.2.1).toNat * 256 + (t.reg8 row.2.2).toNat
          = ((s.reg8 row.2.1).toNat * 256 + (s.reg8 row.2.2).toNat + 1) % 2 ^ 16
      ∧ (s.reg8 row.2.2 ≠ 0xFF → t.reg8 row.2.1 = s.reg8 row.2.1)
      ∧ t.pc = s.pc + 1 ∧ t.flags = s.flags
      ∧ (∀ q, q ≠ row.2.1 → q ≠ row.2.2 → t.reg8 q = s.reg8 q)
      ∧ t.sp = s.sp ∧ t.halted = s.halted ∧ ∀ addr, t.mem.read addr = s.mem.read addr

/-- R120: a step at the opcode byte of a 16-bit Increment, under every well-formed assignment: result
`OK`, one read, the pair incremented, PC advanced, all else unchanged, the flags among it. -/
def Obligations.StepAtIncrementByte : Prop :=
  ∀ (cfg : Config) (s : State), cfg.wellFormed = true → s.halted = false →
    ∀ row ∈ [(cfg.opcodes.incBC, Pair.bc), (cfg.opcodes.incDE, .de), (cfg.opcodes.incHL, .hl)],
      s.mem.read s.pc = row.1 →
        ∃ t, stepReport cfg s = { state := t, result := .ok, reads := [s.pc] }
          ∧ (t.pair row.2).toNat = ((s.pair row.2).toNat + 1) % 2 ^ 16
          ∧ t = { s.setPair row.2 (t.pair row.2) with pc := s.pc + 1 }
          ∧ t.flags = s.flags
          ∧ (s.reg8 (pairLo row.2) ≠ 0xFF → t.reg8 (pairHi row.2) = s.reg8 (pairHi row.2))

/-- 16-bit Increment applied to AF, which no encoding reaches, would change nothing (R124). -/
def Obligations.IncrementOfAfChangesNothing : Prop := ∀ s : State, s.incPair .af = s

/-- R131: when each condition holds. -/
def Obligations.ConditionsTestOneFlag : Prop :=
  ∀ f : Flags,
    condHolds .always f = true
      ∧ (condHolds .z f = true ↔ f.zf = true)
      ∧ (condHolds .nz f = true ↔ f.zf = false)
      ∧ (condHolds .c f = true ↔ f.cf = true)
      ∧ (condHolds .nc f = true ↔ f.cf = false)

/-- The five jumps complete from every state and change PC alone: `jp`, `jpNZ`, `jpZ`, `jpNC`, `jpC` (R130,
R132 to R137). -/
def Obligations.JumpSetsPcAlone : Prop :=
  ∀ (nn : Word) (s : State),
    exec (.jp nn) s = .next { s with pc := nn }
      ∧ exec (.jpNZ nn) s = .next { s with pc := if s.flags.zf = false then nn else s.pc + 3 }
      ∧ exec (.jpZ nn) s = .next { s with pc := if s.flags.zf = true then nn else s.pc + 3 }
      ∧ exec (.jpNC nn) s = .next { s with pc := if s.flags.cf = false then nn else s.pc + 3 }
      ∧ exec (.jpC nn) s = .next { s with pc := if s.flags.cf = true then nn else s.pc + 3 }

/-- R130, R132: a step at the opcode byte of a jump, under every well-formed assignment: three reads modulo
2^16 whether or not it is taken, PC to the little-endian target or past the three bytes, result `OK`,
all else unchanged. -/
def Obligations.StepAtJumpByte : Prop :=
  ∀ (cfg : Config) (s : State), cfg.wellFormed = true → s.halted = false →
    ∀ row ∈ [(cfg.opcodes.jp, true), (cfg.opcodes.jpNZ, !s.flags.zf), (cfg.opcodes.jpZ, s.flags.zf),
        (cfg.opcodes.jpNC, !s.flags.cf), (cfg.opcodes.jpC, s.flags.cf)],
      s.mem.read s.pc = row.1 →
        ∃ target : Word,
          target.toNat = (s.mem.read (s.pc + 2)).toNat * 256 + (s.mem.read (s.pc + 1)).toNat
            ∧ stepReport cfg s
              = { state := { s with pc := if row.2 then target else s.pc + 3 }
                  result := .ok
                  reads := [s.pc, s.pc + 1, s.pc + 2] }

/-- The frame of NOP, HALT and the jumps: every register, every flag, SP and every byte of memory are
unchanged, and HALTED too but for HALT (R100, R101, R130). -/
def Obligations.NopHaltJumpFrame : Prop :=
  ∀ (nn : Word) (s t : State),
    ∀ i ∈ [Instr.nop, .halt, .jp nn, .jpNZ nn, .jpZ nn, .jpNC nn, .jpC nn], exec i s = .next t →
      (∀ r, t.reg8 r = s.reg8 r) ∧ t.flags = s.flags ∧ t.sp = s.sp
        ∧ (i ≠ .halt → t.halted = s.halted) ∧ ∀ addr, t.mem.read addr = s.mem.read addr

/-- An instruction completes exactly when it is one of the 17 of the baseline set: no handler can fail
(R89, R140), and the row `PREFIX` never completes (R65). -/
def Obligations.ExactlyTheInstructionsComplete : Prop :=
  ∀ (i : Instr) (s : State), (∃ t, exec i s = .next t) ↔ i.wellFormed = true

/-! ## Rules about the whole machine -/

/-- Only Halt sets HALTED: a step leaves HALTED = 1 exactly when it ran the byte of Halt (R27). -/
def Obligations.OnlyHaltHalts : Prop :=
  ∀ (cfg : Config) (s t : State), cfg.wellFormed = true → stepWith cfg s = .next t →
    (t.halted = true ↔ s.mem.read s.pc = cfg.opcodes.halt)

/-- Only Add writes flags (R14), and no instruction sets NF (R118 (e)). -/
def Obligations.OnlyAddWritesFlags : Prop :=
  ∀ (cfg : Config) (s t : State), stepWith cfg s = .next t →
    (s.mem.read s.pc ∉ addBytes cfg.opcodes → t.flags = s.flags)
      ∧ (t.flags.nf = true → s.flags.nf = true)

/-- Only the jumps set PC to anything but the next instruction (R138, R25). -/
def Obligations.OnlyJumpsTransferControl : Prop :=
  ∀ (cfg : Config) (s t : State), stepWith cfg s = .next t →
    (s.mem.read s.pc ∉ jumpBytes cfg.opcodes → t.pc = s.pc + 1)
      ∧ (t.pc = s.pc + 1 ∨ t.pc = s.pc + 3
          ∨ t.pc = concat (s.mem.read (s.pc + 2)) (s.mem.read (s.pc + 1)))

/-- After `Reset`, SP keeps its value for ever: no sequence of steps and supplier writes changes it (R26). -/
def Obligations.OnlyResetChangesSp : Prop :=
  ∀ (cfg : Config) (events : List Event) (s : State), (∀ ev ∈ events, ev.isReset = false) →
    (s.afterAll cfg events).sp = s.sp

/-- Nothing but `Reset` leaves the halted state: steps and supplier writes, in any number and order, keep
the whole engine state of a halted machine (R27, R160, R170; D2, log 6). -/
def Obligations.OnlyResetLeavesHalted : Prop :=
  ∀ (cfg : Config) (events : List Event) (s : State), s.halted = true →
    (∀ ev ∈ events, ev.isReset = false) →
      s.afterAll cfg events = s.setMem (s.afterAll cfg events).mem

/-- A jump to its own address loops for ever: every step answers the same state and the run never ends
(R130 (c), R93). -/
def Obligations.JumpToSelfLoopsForEver : Prop :=
  ∀ (s : State) (n : Nat), s.halted = false →
    s.mem.window s.pc 3 = encode (.jp s.pc) →
      step s = .next s
        ∧ drive Config.standard n s = { state := s, executed := n, outcome := .running }

/-- A memory of zeros is an endless sequence of No-ops under the bytes of D3 (log 4): after `n` steps only
PC has moved, by `n` modulo 2^16 (R100, R56). -/
def Obligations.ZeroMemoryRunsNops : Prop :=
  ∀ (n : Nat) (s : State), s.halted = false → (∀ addr, s.mem.read addr = 0x00) →
    drive Config.standard n s
      = { state := { s with pc := s.pc + BitVec.ofNat 16 n }, executed := n, outcome := .running }

/-- How a run ends (R93): normally, halted just past a Halt byte, with at least that one instruction
executed; or stopped at a state whose own step gives that result and changes nothing (D1, D17; log 7,
log 11, log 18). -/
def Obligations.RunsEndAtHaltOrAtTheError : Prop :=
  ∀ (cfg : Config) (n : Nat) (s : State), cfg.wellFormed = true →
    let run := drive cfg n s
    (run.outcome = .normal →
        run.state.halted = true ∧ 0 < run.executed
          ∧ run.state.mem.read (run.state.pc - 1) = cfg.opcodes.halt)
      ∧ (∀ res, run.outcome = .stopped res →
          (stepReport cfg run.state).result = res ∧ (stepReport cfg run.state).state = run.state)
      ∧ (run.outcome = .running → run.executed = n)

/-- What a run is (R93, R156). With `stateAt k` the state after `k` step events, a run of bound `n` ends in
`stateAt` of its executed count; each executed step answers `OK` and runs one of the 17 opcode bytes of the
memory it started with; it runs Halt's byte exactly as the last step of a run that ends normally; and it
falls short of the bound only by a normal end or at a step that does not answer `OK`, whose result it
reports. The bound, and the result of a run started halted, are log 18. -/
def Obligations.RunIsTheStepsItExecuted : Prop :=
  ∀ (cfg : Config) (n : Nat) (s : State), cfg.wellFormed = true →
    let run := drive cfg n s
    let stateAt := fun k => s.afterAll cfg (List.replicate k .step)
    run.state = stateAt run.executed
      ∧ run.executed ≤ n
      ∧ (∀ k, k < run.executed →
          (stepReport cfg (stateAt k)).result = .ok
            ∧ s.mem.read (stateAt k).pc ∈ cfg.opcodes.bytes
            ∧ (s.mem.read (stateAt k).pc = cfg.opcodes.halt
                ↔ k + 1 = run.executed ∧ run.outcome = .normal))
      ∧ (run.executed < n →
          run.outcome = .normal
            ∨ ((stepReport cfg run.state).result ≠ .ok
                ∧ run.outcome = .stopped (stepReport cfg run.state).result))
end

