-- ==== Sys2Proof/Laws/Bits.lean ====
section
/-!
SUPPORT. Two bytes as a word and back (`00_scope.md` section 7).
-/
namespace Sys2Proof

/-- `hi:lo` is `hi * 256 + lo`. -/
theorem concat_toNat (hi lo : Byte) : (concat hi lo).toNat = hi.toNat * 256 + lo.toNat := by
  have h := lo.isLt
  unfold concat
  rw [BitVec.toNat_append, ← Nat.shiftLeft_add_eq_or_of_lt h, Nat.shiftLeft_eq]

/-- The high byte is the word divided by 256. -/
theorem hiByte_toNat (v : Word) : (hiByte v).toNat = v.toNat / 256 := by
  have h := v.isLt
  simp only [hiByte, BitVec.extractLsb'_toNat, Nat.shiftRight_eq_div_pow]
  omega

/-- The low byte is the word modulo 256. -/
theorem loByte_toNat (v : Word) : (loByte v).toNat = v.toNat % 256 := by
  simp only [loByte, BitVec.extractLsb'_toNat, Nat.shiftRight_zero]

/-- A word is its two bytes, high byte first. -/
@[simp] theorem concat_hiByte_loByte (v : Word) : concat (hiByte v) (loByte v) = v := by
  apply BitVec.eq_of_toNat_eq
  rw [concat_toNat, hiByte_toNat, loByte_toNat]
  omega

@[simp] theorem hiByte_concat (hi lo : Byte) : hiByte (concat hi lo) = hi := by
  apply BitVec.eq_of_toNat_eq
  have h := lo.isLt
  rw [hiByte_toNat, concat_toNat]
  omega

@[simp] theorem loByte_concat (hi lo : Byte) : loByte (concat hi lo) = lo := by
  apply BitVec.eq_of_toNat_eq
  have h := lo.isLt
  rw [loByte_toNat, concat_toNat]
  omega

end Sys2Proof
end

