-- ==== Sys2Proof/Laws/Decode.lean ====
section
/-!
SUPPORT. What the decoder's tables answer (R64 to R68).
-/
namespace Sys2Proof

/-- In a table whose keys are distinct, looking up a row's key gives the row. -/
theorem lookup_eq_of_mem {α : Type} {table : List (Byte × α)} (hkeys : (table.map Prod.fst).Nodup)
    {b : Byte} {d : α} (h : (b, d) ∈ table) : table.lookup b = some d := by
  induction table with
  | nil => exact absurd h List.not_mem_nil
  | cons row rest ih =>
    obtain ⟨k, x⟩ := row
    simp only [List.map_cons, List.nodup_cons] at hkeys
    rcases List.mem_cons.1 h with heq | hmem
    · cases heq; simp
    · have hne : b ≠ k := by
        rintro rfl
        exact hkeys.1 (List.mem_map.2 ⟨_, hmem, rfl⟩)
      rw [List.lookup_cons, show (b == k) = false by simpa using hne]
      exact ih hkeys.2 hmem

/-- Looking up a key that answers gives a row of the table. -/
theorem mem_of_lookup {α : Type} {table : List (Byte × α)} {b : Byte} {d : α}
    (h : table.lookup b = some d) : (b, d) ∈ table := by
  induction table with
  | nil => exact absurd h (by simp)
  | cons row rest ih =>
    obtain ⟨k, x⟩ := row
    rw [List.lookup_cons] at h
    by_cases hk : b = k
    · subst hk
      simp only [beq_self_eq_true] at h
      cases h
      exact List.mem_cons_self
    · rw [show (b == k) = false by simpa using hk] at h
      exact List.mem_cons_of_mem _ (ih h)

/-- The keys of the plain table are the 17 opcode bytes. -/
theorem plainTable_keys (o : Opcodes) : (plainTable o).map Prod.fst = o.bytes := rfl

/-- The conditions a well-formed assignment meets (R64). -/
theorem Opcodes.wellFormed_iff (o : Opcodes) :
    o.wellFormed = true ↔ o.escape ∉ o.bytes ∧ o.bytes.Nodup ∧ 0xFD ∉ o.escape :: o.bytes := by
  simp only [Opcodes.wellFormed, Bool.and_eq_true, decide_eq_true_eq, List.nodup_cons,
    Bool.not_eq_true', List.contains_eq_mem, decide_eq_false_iff_not, and_assoc]

/-- The parts of a well-formed configuration (R64, R68). -/
theorem Config.wellFormed_iff (cfg : Config) :
    cfg.wellFormed = true ↔
      cfg.opcodes.wellFormed = true
        ∧ (∀ u ∈ cfg.unhandled, u.disjointFrom cfg.opcodes = true)
        ∧ (cfg.unhandled.map (fun u => (u.ext, u.byte))).Nodup := by
  simp only [Config.wellFormed, Bool.and_eq_true, List.all_eq_true, decide_eq_true_eq, and_assoc]

/-- A plain byte that decodes to a descriptor is a row of the plain table. -/
theorem mem_plainTable_of_decodeByte {cfg : Config} {b : Byte} {d : Descriptor}
    (h : decodeByte cfg b false = .descriptor d) : (b, d) ∈ plainTable cfg.opcodes := by
  unfold decodeByte at h
  split at h
  · next hd => cases h; exact mem_of_lookup hd
  · split at h <;> cases h

/-- The extended table has no row, so no extended byte decodes to a descriptor (R65). -/
theorem decodeByte_extended (cfg : Config) (b : Byte) :
    decodeByte cfg b true =
      match cfg.unhandledTag true b with
      | some tag => .unhandled tag
      | none => .error b true := rfl

/-- A plain byte outside the 17 opcode bytes is looked up in `RECOGNISED_UNHANDLED`, then a decode error
(R66 to R68). -/
theorem decodeByte_plain_of_not_mem {cfg : Config} {b : Byte} (h : b ∉ cfg.opcodes.bytes) :
    decodeByte cfg b false =
      match cfg.unhandledTag false b with
      | some tag => .unhandled tag
      | none => .error b false := by
  unfold decodeByte
  split
  · next d hd =>
    exact absurd (List.mem_map.2 ⟨_, mem_of_lookup hd, rfl⟩ : b ∈ (plainTable cfg.opcodes).map Prod.fst)
      (by rwa [plainTable_keys])
  · rfl

/-- Completing a descriptor gives an instruction of that descriptor. -/
@[simp] theorem descriptor_complete (d : Descriptor) (nn : Word) : (d.complete nn).descriptor = some d := by
  cases d with
  | nop | halt => rfl
  | add r => cases r <;> rfl
  | inc16 p => cases p <;> rfl
  | jp cc => cases cc <;> rfl

end Sys2Proof
end

