-- ==== Sys2Proof/Laws/Driver.lean ====
section
/-!
SUPPORT. What the driving loop can do (R93), said once: its next step by the step's result, and that it
can be cut anywhere.
-/
namespace Sys2Proof.Machine

/-- The first step of a driving loop: stop at a result that is not `OK`, end at HALTED = 1, else go on. -/
theorem drive_succ (cfg : Config) (n : Nat) (s : State) :
    drive cfg (n + 1) s =
      let r := stepReport cfg s
      if r.result = .ok then
        if r.state.halted then { state := r.state, executed := 1, outcome := .normal }
        else { drive cfg n r.state with executed := (drive cfg n r.state).executed + 1 }
      else { state := r.state, executed := 0, outcome := .stopped r.result } := by
  rw [drive]
  cases h : (stepReport cfg s).result <;> simp [h]

/-- Driving `m + n` steps is driving `m` and, if the run still goes on, `n` more, the counts added. -/
theorem drive_add (cfg : Config) (m n : Nat) (s : State) :
    drive cfg (m + n) s =
      if (drive cfg m s).outcome = .running then
        { drive cfg n (drive cfg m s).state with
          executed := (drive cfg m s).executed + (drive cfg n (drive cfg m s).state).executed }
      else drive cfg m s := by
  induction m generalizing s with
  | zero => simp [drive]
  | succ m ih =>
    rw [Nat.add_right_comm, drive_succ, drive_succ]
    dsimp only
    split
    · split
      · simp
      · rw [ih]
        split <;> simp_all
        omega
    · simp

/-- A list of events runs its first part, then the rest. -/
theorem State.afterAll_append (cfg : Config) (s : State) (xs ys : List Event) :
    s.afterAll cfg (xs ++ ys) = (s.afterAll cfg xs).afterAll cfg ys := by
  induction xs generalizing s with
  | nil => rfl
  | cons ev rest ih => exact ih (s.after cfg ev)

end Sys2Proof.Machine
end

