-- ==== Sys2Proof/Laws/Flags.lean ====
section
/-!
SUPPORT. The bits of the flags byte, and Add in bit-vector form (R15, R16, R110).
-/
namespace Sys2Proof.Machine

/-- Bits 7 to 4 of the flags byte are the flags. -/
@[simp] theorem Flags.fromByte_toByte_flags (f : Flags) : Flags.fromByte f.toByte = f := by
  obtain ⟨z, n, h, c⟩ := f
  revert z n h c; decide

/-- Bits 3 to 0 of the flags byte are zero. -/
theorem Flags.toByte_low_nibble (f : Flags) : f.toByte &&& 0x0F = 0 := by
  obtain ⟨z, n, h, c⟩ := f
  revert z n h c; decide

/-- Add's result as a bit-vector sum. -/
theorem add8_fst (a v : Byte) : (add8 a v).1 = a + v := by
  apply BitVec.eq_of_toNat_eq
  simp [add8]

/-- Add's flags, each from its formula (R110). -/
theorem add8_snd (a v : Byte) :
    (add8 a v).2 =
      { zf := decide (a + v = 0), nf := false,
        hf := decide (15 < a.toNat % 16 + v.toNat % 16), cf := decide (255 < a.toNat + v.toNat) } := by
  rw [← add8_fst]; rfl

end Sys2Proof.Machine
end

