-- ==== Sys2Proof/Laws/Memory.lean ====
section
/-!
SUPPORT. The cells of a memory, and that every memory operation keeps the canonical form.
-/
namespace Sys2Proof.Machine

/-! ## One cell list -/

/-- Reading after an insertion. -/
theorem cellAt_insertCell (a k : Nat) (v : Byte) (cells : List Host.Cell) :
    cellAt k (insertCell a v cells) = if a = k then v else cellAt k cells := by
  induction cells with
  | nil => rfl
  | cons cell rest ih =>
    obtain ⟨j, w⟩ := cell
    simp only [insertCell]
    split_ifs <;> simp_all [cellAt]

/-- Reading after an erasure. -/
theorem cellAt_eraseCell (a k : Nat) (cells : List Host.Cell) :
    cellAt k (eraseCell a cells) = if a = k then Memory.unlisted else cellAt k cells := by
  induction cells with
  | nil => simp [eraseCell, cellAt]
  | cons cell rest ih =>
    obtain ⟨j, w⟩ := cell
    unfold eraseCell at ih ⊢
    rw [List.filter_cons]
    by_cases hj : j = a
    · simp_all [cellAt]
    · simp_all [cellAt]
      by_cases hk : j = k <;> simp_all
      intro h; omega

/-- The cells after an insertion come from the list or are the new one. -/
theorem mem_insertCell {a : Nat} {v : Byte} {cells : List Host.Cell} {cell : Host.Cell}
    (h : cell ∈ insertCell a v cells) : cell = (a, v) ∨ cell ∈ cells := by
  induction cells with
  | nil => simpa [insertCell] using h
  | cons head rest ih =>
    obtain ⟨j, w⟩ := head
    simp only [insertCell] at h
    split_ifs at h <;> simp only [List.mem_cons] at h ⊢ <;> tauto

/-- An insertion keeps addresses rising. -/
theorem pairwise_insertCell (a : Nat) (v : Byte) {cells : List Host.Cell}
    (h : cells.Pairwise (fun x y => x.1 < y.1)) :
    (insertCell a v cells).Pairwise (fun x y => x.1 < y.1) := by
  induction cells with
  | nil => simp [insertCell]
  | cons head rest ih =>
    obtain ⟨j, w⟩ := head
    rw [List.pairwise_cons] at h
    obtain ⟨hhead, hrest⟩ := h
    simp only [insertCell]
    split_ifs with hlt heq
    · refine List.pairwise_cons.2 ⟨fun y hy => ?_, List.pairwise_cons.2 ⟨hhead, hrest⟩⟩
      rcases List.mem_cons.1 hy with rfl | hy
      · exact hlt
      · exact Nat.lt_trans hlt (hhead y hy)
    · exact List.pairwise_cons.2 ⟨fun y hy => heq ▸ hhead y hy, hrest⟩
    · refine List.pairwise_cons.2 ⟨fun y hy => ?_, ih hrest⟩
      rcases mem_insertCell hy with rfl | hy
      · exact (show j < a by omega)
      · exact hhead y hy

/-! ## The canonical form (`Memory.wf`) is kept by every operation -/

theorem Memory.wf_empty : Memory.empty.wf := by decide

theorem Memory.wf_write {m : Memory} (h : m.wf) (addr : Word) (v : Byte) : (m.write addr v).wf := by
  unfold Memory.write
  split
  · exact ⟨h.1.filter _, fun cell hc => h.2 cell (List.mem_of_mem_filter hc)⟩
  · next hv =>
    refine ⟨pairwise_insertCell _ _ h.1, fun cell hc => ?_⟩
    rcases mem_insertCell hc with rfl | hc
    · exact ⟨addr.isLt, hv⟩
    · exact h.2 cell hc

theorem Memory.wf_writeBytes (bytes : List Byte) {m : Memory} (h : m.wf) (addr : Word) :
    (m.writeBytes addr bytes).wf := by
  induction bytes generalizing m addr with
  | nil => exact h
  | cons v rest ih => exact ih (Memory.wf_write h addr v) (addr + 1)

theorem Memory.wf_reset : State.reset.mem.wf := by decide

/-- A supplier's write keeps the canonical form (R55). -/
theorem State.wf_supplierWrite {s : State} (h : s.mem.wf) (addr : Word) (v : Byte) :
    (s.supplierWrite addr v).mem.wf := Memory.wf_write h addr v

/-- Placing an instruction keeps the canonical form. -/
theorem State.wf_placeTableWord {s : State} (h : s.mem.wf) (nbits w : Nat) :
    (placeTableWord s nbits w).mem.wf := Memory.wf_writeBytes _ h _

end Sys2Proof.Machine
end

