-- ==== Sys2Proof/Laws/PerInstr.lean ====
section
/-!
SUPPORT. Facts about every instruction as syntax, one lemma per constructor.
-/
namespace Sys2Proof.Laws.EncodedLength

/-- The encoding of an instruction has the length R73 gives it, under every assignment. -/
def Statement (i : Instr) : Prop := ∀ cfg : Config, (encodeWith cfg i).length = i.length

theorem nop : Statement .nop := fun _ => rfl
theorem incBC : Statement .incBC := fun _ => rfl
theorem incDE : Statement .incDE := fun _ => rfl
theorem incHL : Statement .incHL := fun _ => rfl
theorem halt : Statement .halt := fun _ => rfl
theorem addAB : Statement .addAB := fun _ => rfl
theorem addAC : Statement .addAC := fun _ => rfl
theorem addAD : Statement .addAD := fun _ => rfl
theorem addAE : Statement .addAE := fun _ => rfl
theorem addAH : Statement .addAH := fun _ => rfl
theorem addAL : Statement .addAL := fun _ => rfl
theorem addAA : Statement .addAA := fun _ => rfl
theorem jpNZ (nn : Word) : Statement (.jpNZ nn) := fun _ => rfl
theorem jp (nn : Word) : Statement (.jp nn) := fun _ => rfl
theorem jpZ (nn : Word) : Statement (.jpZ nn) := fun _ => rfl
theorem jpNC (nn : Word) : Statement (.jpNC nn) := fun _ => rfl
theorem jpC (nn : Word) : Statement (.jpC nn) := fun _ => rfl
theorem prefixed (op : Byte) : Statement (.prefixed op) := fun _ => rfl

end Sys2Proof.Laws.EncodedLength
end

