-- ==== Sys2Proof/Laws/State.lean ====
section
/-!
SUPPORT. One lemma per field per update of the state, true by `rfl` or by the register named.
-/
namespace Sys2Proof.Machine

section
variable (s : State) (v w : Word) (x : Byte) (on : Bool) (m : Memory) (f : Flags) (r : Reg8) (p : Pair)

/-! ## setPc -/
@[simp] theorem State.setPc_a : (s.setPc v).a = s.a := rfl
@[simp] theorem State.setPc_b : (s.setPc v).b = s.b := rfl
@[simp] theorem State.setPc_c : (s.setPc v).c = s.c := rfl
@[simp] theorem State.setPc_d : (s.setPc v).d = s.d := rfl
@[simp] theorem State.setPc_e : (s.setPc v).e = s.e := rfl
@[simp] theorem State.setPc_h : (s.setPc v).h = s.h := rfl
@[simp] theorem State.setPc_l : (s.setPc v).l = s.l := rfl
@[simp] theorem State.setPc_flags : (s.setPc v).flags = s.flags := rfl
@[simp] theorem State.setPc_pc : (s.setPc v).pc = v := rfl
@[simp] theorem State.setPc_sp : (s.setPc v).sp = s.sp := rfl
@[simp] theorem State.setPc_halted : (s.setPc v).halted = s.halted := rfl
@[simp] theorem State.setPc_mem : (s.setPc v).mem = s.mem := rfl
@[simp] theorem State.setPc_reg8 : (s.setPc v).reg8 r = s.reg8 r := by cases r <;> rfl
@[simp] theorem State.setPc_pair : (s.setPc v).pair p = s.pair p := by cases p <;> rfl

/-! ## advance -/
@[simp] theorem State.advance_a : (s.advance v).a = s.a := rfl
@[simp] theorem State.advance_b : (s.advance v).b = s.b := rfl
@[simp] theorem State.advance_c : (s.advance v).c = s.c := rfl
@[simp] theorem State.advance_d : (s.advance v).d = s.d := rfl
@[simp] theorem State.advance_e : (s.advance v).e = s.e := rfl
@[simp] theorem State.advance_h : (s.advance v).h = s.h := rfl
@[simp] theorem State.advance_l : (s.advance v).l = s.l := rfl
@[simp] theorem State.advance_flags : (s.advance v).flags = s.flags := rfl
@[simp] theorem State.advance_pc : (s.advance v).pc = s.pc + v := rfl
@[simp] theorem State.advance_sp : (s.advance v).sp = s.sp := rfl
@[simp] theorem State.advance_halted : (s.advance v).halted = s.halted := rfl
@[simp] theorem State.advance_mem : (s.advance v).mem = s.mem := rfl
@[simp] theorem State.advance_reg8 : (s.advance v).reg8 r = s.reg8 r := by cases r <;> rfl
@[simp] theorem State.advance_pair : (s.advance v).pair p = s.pair p := by cases p <;> rfl

/-! ## setHalted -/
@[simp] theorem State.setHalted_a : (s.setHalted on).a = s.a := rfl
@[simp] theorem State.setHalted_b : (s.setHalted on).b = s.b := rfl
@[simp] theorem State.setHalted_c : (s.setHalted on).c = s.c := rfl
@[simp] theorem State.setHalted_d : (s.setHalted on).d = s.d := rfl
@[simp] theorem State.setHalted_e : (s.setHalted on).e = s.e := rfl
@[simp] theorem State.setHalted_h : (s.setHalted on).h = s.h := rfl
@[simp] theorem State.setHalted_l : (s.setHalted on).l = s.l := rfl
@[simp] theorem State.setHalted_flags : (s.setHalted on).flags = s.flags := rfl
@[simp] theorem State.setHalted_pc : (s.setHalted on).pc = s.pc := rfl
@[simp] theorem State.setHalted_sp : (s.setHalted on).sp = s.sp := rfl
@[simp] theorem State.setHalted_halted : (s.setHalted on).halted = on := rfl
@[simp] theorem State.setHalted_mem : (s.setHalted on).mem = s.mem := rfl
@[simp] theorem State.setHalted_reg8 : (s.setHalted on).reg8 r = s.reg8 r := by cases r <;> rfl
@[simp] theorem State.setHalted_pair : (s.setHalted on).pair p = s.pair p := by cases p <;> rfl

/-! ## setMem -/
@[simp] theorem State.setMem_a : (s.setMem m).a = s.a := rfl
@[simp] theorem State.setMem_b : (s.setMem m).b = s.b := rfl
@[simp] theorem State.setMem_c : (s.setMem m).c = s.c := rfl
@[simp] theorem State.setMem_d : (s.setMem m).d = s.d := rfl
@[simp] theorem State.setMem_e : (s.setMem m).e = s.e := rfl
@[simp] theorem State.setMem_h : (s.setMem m).h = s.h := rfl
@[simp] theorem State.setMem_l : (s.setMem m).l = s.l := rfl
@[simp] theorem State.setMem_flags : (s.setMem m).flags = s.flags := rfl
@[simp] theorem State.setMem_pc : (s.setMem m).pc = s.pc := rfl
@[simp] theorem State.setMem_sp : (s.setMem m).sp = s.sp := rfl
@[simp] theorem State.setMem_halted : (s.setMem m).halted = s.halted := rfl
@[simp] theorem State.setMem_mem : (s.setMem m).mem = m := rfl
@[simp] theorem State.setMem_reg8 : (s.setMem m).reg8 r = s.reg8 r := by cases r <;> rfl
@[simp] theorem State.setMem_pair : (s.setMem m).pair p = s.pair p := by cases p <;> rfl

/-! ## setFlags -/
@[simp] theorem State.setFlags_a : (s.setFlags f).a = s.a := rfl
@[simp] theorem State.setFlags_b : (s.setFlags f).b = s.b := rfl
@[simp] theorem State.setFlags_c : (s.setFlags f).c = s.c := rfl
@[simp] theorem State.setFlags_d : (s.setFlags f).d = s.d := rfl
@[simp] theorem State.setFlags_e : (s.setFlags f).e = s.e := rfl
@[simp] theorem State.setFlags_h : (s.setFlags f).h = s.h := rfl
@[simp] theorem State.setFlags_l : (s.setFlags f).l = s.l := rfl
@[simp] theorem State.setFlags_flags : (s.setFlags f).flags = f := rfl
@[simp] theorem State.setFlags_pc : (s.setFlags f).pc = s.pc := rfl
@[simp] theorem State.setFlags_sp : (s.setFlags f).sp = s.sp := rfl
@[simp] theorem State.setFlags_halted : (s.setFlags f).halted = s.halted := rfl
@[simp] theorem State.setFlags_mem : (s.setFlags f).mem = s.mem := rfl

/-! ## setReg8: what a register write leaves alone (R11) -/
@[simp] theorem State.setReg8_pc : (s.setReg8 r x).pc = s.pc := by cases r <;> rfl
@[simp] theorem State.setReg8_sp : (s.setReg8 r x).sp = s.sp := by cases r <;> rfl
@[simp] theorem State.setReg8_halted : (s.setReg8 r x).halted = s.halted := by cases r <;> rfl
@[simp] theorem State.setReg8_mem : (s.setReg8 r x).mem = s.mem := by cases r <;> rfl

/-- A write of one register changes no other (R11). -/
theorem State.setReg8_reg8_of_ne {q : Reg8} (h : q ≠ r) : (s.setReg8 r x).reg8 q = s.reg8 q := by
  cases r <;> cases q <;> first | rfl | exact absurd rfl h

/-- A general register reads what was written to it (R11). -/
theorem State.setReg8_reg8_same (h : r ≠ .f) : (s.setReg8 r x).reg8 r = x := by
  cases r <;> first | rfl | exact absurd rfl h

/-- Only a write of F writes the flags (R14, R17). -/
theorem State.setReg8_flags_of_ne (h : r ≠ .f) : (s.setReg8 r x).flags = s.flags := by
  cases r <;> first | rfl | exact absurd rfl h

/-! ## setPair, incPair, addToA, jumpIf: the fields they never write -/
@[simp] theorem State.setPair_pc : (s.setPair p v).pc = s.pc := by cases p <;> rfl
@[simp] theorem State.setPair_sp : (s.setPair p v).sp = s.sp := by cases p <;> rfl
@[simp] theorem State.setPair_halted : (s.setPair p v).halted = s.halted := by cases p <;> rfl
@[simp] theorem State.setPair_mem : (s.setPair p v).mem = s.mem := by cases p <;> rfl

/-- A pair of general registers leaves the flags alone (R14, R19). -/
theorem State.setPair_flags_of_ne (h : p ≠ .af) : (s.setPair p v).flags = s.flags := by
  cases p <;> first | rfl | exact absurd rfl h

@[simp] theorem State.incPair_pc : (s.incPair p).pc = s.pc := by cases p <;> rfl
@[simp] theorem State.incPair_sp : (s.incPair p).sp = s.sp := by cases p <;> rfl
@[simp] theorem State.incPair_halted : (s.incPair p).halted = s.halted := by cases p <;> rfl
@[simp] theorem State.incPair_mem : (s.incPair p).mem = s.mem := by cases p <;> rfl

@[simp] theorem State.addToA_a : (s.addToA r).a = (add8 s.a (s.reg8 r)).1 := rfl
@[simp] theorem State.addToA_b : (s.addToA r).b = s.b := rfl
@[simp] theorem State.addToA_c : (s.addToA r).c = s.c := rfl
@[simp] theorem State.addToA_d : (s.addToA r).d = s.d := rfl
@[simp] theorem State.addToA_e : (s.addToA r).e = s.e := rfl
@[simp] theorem State.addToA_h : (s.addToA r).h = s.h := rfl
@[simp] theorem State.addToA_l : (s.addToA r).l = s.l := rfl
@[simp] theorem State.addToA_flags : (s.addToA r).flags = (add8 s.a (s.reg8 r)).2 := rfl
@[simp] theorem State.addToA_pc : (s.addToA r).pc = s.pc := rfl
@[simp] theorem State.addToA_sp : (s.addToA r).sp = s.sp := rfl
@[simp] theorem State.addToA_halted : (s.addToA r).halted = s.halted := rfl
@[simp] theorem State.addToA_mem : (s.addToA r).mem = s.mem := rfl

/-- A jump changes the counter alone (R130). -/
theorem State.jumpIf_eq_setPc (cc : Cond) :
    s.jumpIf cc v = s.setPc (if condHolds cc s.flags then v else s.pc + 3) := by
  unfold State.jumpIf State.advance; split <;> rfl

@[simp] theorem State.setPc_setPc : (s.setPc v).setPc w = s.setPc w := rfl

end

end Sys2Proof.Machine
end

