-- ==== Sys2Proof/Laws/Step.lean ====
section
/-!
SUPPORT. What a fetch, an instruction and a step can do, said once.
-/
namespace Sys2Proof.Machine

/-! ## Fetch -/

/-- Everything a fetch can do: an escape byte and the byte after it, or a plain byte and, for a jump, the
two bytes after it (R84 to R86, R130). -/
theorem fetchInstr_eq (cfg : Config) (m : Memory) (pc : Word) :
    fetchInstr cfg m pc =
      if m.read pc = cfg.opcodes.escape then
        (match decodeByte cfg (m.read (pc + 1)) true with
          | .unhandled tag => .unhandled tag
          | .descriptor _ | .error _ _ => .instr (.prefixed (m.read (pc + 1))),
         { p := pc + 1 + 1, reads := [pc, pc + 1] })
      else
        match decodeByte cfg (m.read pc) false with
        | .descriptor d =>
          if d.hasImm16 then
            (.instr (d.complete (concat (m.read (pc + 1 + 1)) (m.read (pc + 1)))),
             { p := pc + 1 + 1 + 1, reads := [pc, pc + 1, pc + 1 + 1] })
          else (.instr (d.complete 0), { p := pc + 1, reads := [pc] })
        | .unhandled tag => (.unhandled tag, { p := pc + 1, reads := [pc] })
        | .error b ext => (.error b ext, { p := pc + 1, reads := [pc] }) := by
  show fetchRest cfg m (m.read pc) { p := pc + 1, reads := [pc] } = _
  unfold fetchRest
  split
  · simp only [fetchExtended, fetchByte, List.cons_append, List.nil_append]
    cases decodeByte cfg (m.read (pc + 1)) true <;> rfl
  · cases decodeByte cfg (m.read pc) false with
    | descriptor d =>
      simp only [fetchOperands, fetchWord, fetchByte, List.cons_append, List.nil_append]
    | unhandled tag => rfl
    | error b ext => rfl

/-! ## exec -/

/-- Everything an instruction can do when it answers a next state (R89): move the counter after leaving
the state, halting it, adding to A or incrementing a pair; or jump. -/
theorem exec_next_cases {i : Instr} {s t : State} (h : exec i s = .next t) :
    (i = .nop ∧ t = s.advance 1)
    ∨ (i = .halt ∧ t = (s.setHalted true).advance 1)
    ∨ (∃ r, i = (Descriptor.add r).complete 0 ∧ t = (s.addToA (addOperandReg r)).advance 1)
    ∨ (∃ p, i = (Descriptor.inc16 p).complete 0 ∧ t = (s.incPair (incOperandPair p)).advance 1)
    ∨ (∃ cc nn, i = (Descriptor.jp cc).complete nn ∧ t = s.jumpIf cc nn) := by
  cases i with
  | nop => cases h; exact .inl ⟨rfl, rfl⟩
  | halt => cases h; exact .inr (.inl ⟨rfl, rfl⟩)
  | addAB => cases h; exact .inr (.inr (.inl ⟨.b, rfl, rfl⟩))
  | addAC => cases h; exact .inr (.inr (.inl ⟨.c, rfl, rfl⟩))
  | addAD => cases h; exact .inr (.inr (.inl ⟨.d, rfl, rfl⟩))
  | addAE => cases h; exact .inr (.inr (.inl ⟨.e, rfl, rfl⟩))
  | addAH => cases h; exact .inr (.inr (.inl ⟨.h, rfl, rfl⟩))
  | addAL => cases h; exact .inr (.inr (.inl ⟨.l, rfl, rfl⟩))
  | addAA => cases h; exact .inr (.inr (.inl ⟨.a, rfl, rfl⟩))
  | incBC => cases h; exact .inr (.inr (.inr (.inl ⟨.bc, rfl, rfl⟩)))
  | incDE => cases h; exact .inr (.inr (.inr (.inl ⟨.de, rfl, rfl⟩)))
  | incHL => cases h; exact .inr (.inr (.inr (.inl ⟨.hl, rfl, rfl⟩)))
  | jpNZ nn => cases h; exact .inr (.inr (.inr (.inr ⟨.nz, nn, rfl, rfl⟩)))
  | jp nn => cases h; exact .inr (.inr (.inr (.inr ⟨.always, nn, rfl, rfl⟩)))
  | jpZ nn => cases h; exact .inr (.inr (.inr (.inr ⟨.z, nn, rfl, rfl⟩)))
  | jpNC nn => cases h; exact .inr (.inr (.inr (.inr ⟨.nc, nn, rfl, rfl⟩)))
  | jpC nn => cases h; exact .inr (.inr (.inr (.inr ⟨.c, nn, rfl, rfl⟩)))
  | prefixed op => cases h

/-- An instruction leaves memory and SP alone (R26, R42). -/
theorem exec_frame {i : Instr} {s t : State} (h : exec i s = .next t) :
    t.mem = s.mem ∧ t.sp = s.sp := by
  obtain ⟨-, rfl⟩ | ⟨-, rfl⟩ | ⟨r, -, rfl⟩ | ⟨p, -, rfl⟩ | ⟨cc, nn, -, rfl⟩ := exec_next_cases h
  · exact ⟨rfl, rfl⟩
  · exact ⟨rfl, rfl⟩
  · exact ⟨rfl, rfl⟩
  · simp
  · simp [State.jumpIf_eq_setPc]

/-! ## A step -/

/-- A halted machine is rejected (R81). -/
theorem stepWith_halted {cfg : Config} {s : State} (h : s.halted = true) :
    stepWith cfg s = .refused .halted := by simp [stepWith, h]

/-- A running machine fetches and dispatches. -/
theorem stepWith_running {cfg : Config} {s : State} (h : s.halted = false) :
    stepWith cfg s = dispatch (fetchInstr cfg s.mem s.pc).1 s := by simp [stepWith, h]

/-- A step that answers a next state ran an instruction that was fetched (R92). -/
theorem stepWith_next {cfg : Config} {s t : State} (h : stepWith cfg s = .next t) :
    s.halted = false ∧ ∃ i, (fetchInstr cfg s.mem s.pc).1 = .instr i ∧ exec i s = .next t := by
  cases hh : s.halted with
  | true => rw [stepWith_halted hh] at h; cases h
  | false =>
    rw [stepWith_running hh] at h
    refine ⟨rfl, ?_⟩
    generalize (fetchInstr cfg s.mem s.pc).1 = f at h
    cases f with
    | instr i => exact ⟨i, rfl, h⟩
    | unhandled tag => cases h
    | error b ext => cases h

/-- The state after a step is the committed state or the state before (R90). -/
theorem stepReport_state_cases (cfg : Config) (s : State) :
    (stepReport cfg s).state = s ∨ stepWith cfg s = .next (stepReport cfg s).state := by
  simp only [stepReport]
  cases h : stepWith cfg s with
  | next t => exact .inr rfl
  | fault f => exact .inl rfl
  | refused r => exact .inl rfl

end Sys2Proof.Machine
end

