-- ==== Sys2Proof/Tests/Slice0.lean ====
section
/-!
SUPPORT. The author's own tests: decode words written out from R64, the manual's vectors one step at a
time, the well-formedness smoke tests, and a witness for each statement that has hypotheses.

Expected values are those of `95_test_vectors.md` and of the rules' own examples.
-/
namespace Sys2Proof.Machine.Tests

/-- The reset state with a counter and some memory cells. -/
def at_ (pc : Word) (cells : List Host.Cell) : State :=
  { State.reset with pc := pc, mem := { cells := cells } }

/-- The state an outcome leads to, if it is a next state. -/
def nextOf : StepOutcome → Option State
  | .next t => some t
  | .fault _ => none
  | .refused _ => none

/-- The fault an outcome ends in, if it does. -/
def faultOf : StepOutcome → Option Fault
  | .next _ => none
  | .fault f => some f
  | .refused _ => none

/-- A, F and PC after one step. -/
def afPc (s : State) : Option (Byte × Byte × Word) :=
  (nextOf (step s)).map (fun t => (t.a, t.flags.toByte, t.pc))

/-- PC and HALTED after one step. -/
def pcHalted (s : State) : Option (Word × Bool) := (nextOf (step s)).map (fun t => (t.pc, t.halted))

/-- A configuration with two recognised opcodes without a handler, one in each table (the first is the
example of `95_test_vectors.md` section 7). -/
def twoUnhandled : Config where
  opcodes := Opcodes.lr35902
  unhandled := [⟨false, 0x33, "INC16(SP)"⟩, ⟨true, 0x37, "EXT(37)"⟩]

/-! ## Well-formedness (R64, R68): an ill-formed term for each check -/

theorem test_standard_wf : Config.standard.wellFormed = true := by decide
theorem test_two_unhandled_wf : twoUnhandled.wellFormed = true := by decide
theorem test_duplicate_byte_refused : ({ Opcodes.lr35902 with jp := 0x00 } : Opcodes).wellFormed = false := by
  decide
theorem test_escape_as_opcode_refused : ({ Opcodes.lr35902 with escape := 0x76 } : Opcodes).wellFormed = false := by
  decide
theorem test_fd_as_opcode_refused : ({ Opcodes.lr35902 with nop := 0xFD } : Opcodes).wellFormed = false := by
  decide
theorem test_unhandled_overlapping_opcode_refused :
    ({ Config.standard with unhandled := [⟨false, 0x76, "X"⟩] } : Config).wellFormed = false := by decide
theorem test_unhandled_overlapping_escape_refused :
    ({ Config.standard with unhandled := [⟨false, 0xCB, "X"⟩] } : Config).wellFormed = false := by decide
theorem test_two_tags_for_one_byte_refused :
    ({ Config.standard with unhandled := [⟨true, 0x00, "X"⟩, ⟨true, 0x00, "Y"⟩] } : Config).wellFormed
      = false := by decide
theorem test_extended_byte_may_equal_an_opcode :
    ({ Config.standard with unhandled := [⟨true, 0x76, "X"⟩] } : Config).wellFormed = true := by decide
theorem test_escape_row_is_no_instruction : (Instr.prefixed 0x00).wellFormed = false := by decide

/-! ## Decoding: every constructor from its byte in R64, jumps little-endian (R63) -/

theorem test_decode_nop : decode [0b00000000] = some (.nop, []) := by decide
theorem test_decode_incBC : decode [0b00000011] = some (.incBC, []) := by decide
theorem test_decode_incDE : decode [0b00010011] = some (.incDE, []) := by decide
theorem test_decode_incHL : decode [0b00100011] = some (.incHL, []) := by decide
theorem test_decode_halt : decode [0b01110110] = some (.halt, []) := by decide
theorem test_decode_addAB : decode [0b10000000] = some (.addAB, []) := by decide
theorem test_decode_addAC : decode [0b10000001] = some (.addAC, []) := by decide
theorem test_decode_addAD : decode [0b10000010] = some (.addAD, []) := by decide
theorem test_decode_addAE : decode [0b10000011] = some (.addAE, []) := by decide
theorem test_decode_addAH : decode [0b10000100] = some (.addAH, []) := by decide
theorem test_decode_addAL : decode [0b10000101] = some (.addAL, []) := by decide
theorem test_decode_addAA : decode [0b10000111] = some (.addAA, []) := by decide
theorem test_decode_jpNZ : decode [0b11000010, 0x34, 0x12] = some (.jpNZ 0x1234, []) := by decide
theorem test_decode_jp : decode [0b11000011, 0xFF, 0x00] = some (.jp 0x00FF, []) := by decide
theorem test_decode_jpZ : decode [0b11001010, 0xCD, 0xAB] = some (.jpZ 0xABCD, []) := by decide
theorem test_decode_jpNC : decode [0b11010010, 0x00, 0x01] = some (.jpNC 0x0100, []) := by decide
theorem test_decode_jpC : decode [0b11011010, 0xFF, 0xFF] = some (.jpC 0xFFFF, []) := by decide
theorem test_decode_escape : decode [0b11001011, 0xCB] = some (.prefixed 0xCB, []) := by decide
theorem test_decode_fd_rejected : decodeWith Config.standard [0xFD] = .error 0xFD false := by decide
theorem test_decode_86_rejected : decodeWith Config.standard [0x86] = .error 0x86 false := by decide
theorem test_decode_jp_truncated : decodeWith Config.standard [0xC3, 0x34] = .truncated := by decide
theorem test_decode_plain_escape : decodeByte Config.standard 0xCB false = .error 0xCB false := by decide
theorem test_decode_unhandled : decodeByte twoUnhandled 0x33 false = .unhandled "INC16(SP)" := rfl
theorem test_decode_unhandled_extended : decodeByte twoUnhandled 0x37 true = .unhandled "EXT(37)" := rfl
theorem test_table_word_jp : decodeTableWord 24 0x1234C3 = some (.jp 0x1234) := by decide
theorem test_table_word_short_jp : decodeTableWord 8 0xFFFFC3 = some (.jp 0x0000) := by decide
theorem test_table_word_escape : decodeTableWord 16 0x37CB = some (.prefixed 0x37) := by decide
theorem test_encode_jpZ : encode (.jpZ 0x1234) = [0xCA, 0x34, 0x12] := by decide

/-! ## Flags codec, pairs, HLI, HLD (`95_test_vectors.md` sections 1 to 3) -/

theorem test_from_byte_a5 : Flags.fromByte 0xA5 = ⟨true, false, true, false⟩ := by decide
theorem test_from_byte_1f : Flags.fromByte 0x1F = ⟨false, false, false, true⟩ := by decide
theorem test_to_byte_90 : Flags.toByte ⟨true, false, false, true⟩ = 0x90 := by decide
theorem test_set_af : (State.reset.setPair .af 0x1234).pair .af = 0x1230 := by decide
theorem test_set_de_halves : (State.reset.setPair .de 0x1234).d = 0x12 ∧ (State.reset.setPair .de 0x1234).e = 0x34 := by
  decide
theorem test_hli_wraps : ((State.reset.setPair .hl 0xFFFF).readHLI.1,
    (State.reset.setPair .hl 0xFFFF).readHLI.2.pair .hl) = (0xFFFF, 0x0000) := by decide
theorem test_hld_borrows : ((State.reset.setPair .hl 0x1300).readHLD.1,
    (State.reset.setPair .hl 0x1300).readHLD.2.pair .hl) = (0x1300, 0x12FF) := by decide

/-! ## One step each (`95_test_vectors.md` sections 4 to 7) -/

theorem test_add_ab : afPc { at_ 0 [(0, 0x80)] with a := 0x0F, b := 0x01 } = some (0x10, 0x20, 0x0001) := by
  decide
theorem test_add_ac_clears_nf :
    afPc { at_ 0 [(0, 0x81)] with a := 0x01, c := 0x02, flags := ⟨true, true, true, true⟩ }
      = some (0x03, 0x00, 0x0001) := by decide
theorem test_add_ad : afPc { at_ 0 [(0, 0x82)] with a := 0xF0, d := 0x10 } = some (0x00, 0x90, 0x0001) := by
  decide
theorem test_add_ae : afPc { at_ 0 [(0, 0x83)] with a := 0x08, e := 0x08 } = some (0x10, 0x20, 0x0001) := by
  decide
theorem test_add_ah : afPc { at_ 0 [(0, 0x84)] with a := 0x12, h := 0x34 } = some (0x46, 0x00, 0x0001) := by
  decide
theorem test_add_al : afPc { at_ 0 [(0, 0x85)] with a := 0xFF, l := 0x01 } = some (0x00, 0xB0, 0x0001) := by
  decide
theorem test_add_aa : afPc { at_ 0 [(0, 0x87)] with a := 0x88 } = some (0x10, 0x30, 0x0001) := by decide
theorem test_inc_bc_carries : (nextOf (step { at_ 0 [(0, 0x03)] with c := 0xFF, flags := ⟨true, true, true, true⟩ })).map
    (fun t => (t.b, t.c, t.flags.toByte, t.pc)) = some (0x01, 0x00, 0xF0, 0x0001) := by decide
theorem test_inc_de : (nextOf (step { at_ 0 [(0, 0x13)] with d := 0x12, e := 0x34 })).map
    (fun t => (t.d, t.e)) = some (0x12, 0x35) := by decide
theorem test_inc_hl_wraps : (nextOf (step { at_ 0 [(0, 0x23)] with h := 0xFF, l := 0xFF })).map
    (fun t => (t.h, t.l, t.flags.zf)) = some (0x00, 0x00, false) := by decide
theorem test_nop_wraps : pcHalted (at_ 0xFFFF []) = some (0x0000, false) := by decide
theorem test_halt : pcHalted (at_ 0x0005 [(5, 0x76)]) = some (0x0006, true) := by decide
theorem test_jp : pcHalted (at_ 0 [(0, 0xC3), (1, 0x34), (2, 0x12)]) = some (0x1234, false) := by decide
theorem test_jp_z_not_taken : pcHalted (at_ 0 [(0, 0xCA), (1, 0x34), (2, 0x12)]) = some (0x0003, false) := by
  decide
theorem test_jp_z_wraps_taken : pcHalted { at_ 0xFFFF [(0, 0xCD), (1, 0xAB), (0xFFFF, 0xCA)] with
    flags := ⟨true, false, false, false⟩ } = some (0xABCD, false) := by decide
theorem test_jp_nz_not_taken : pcHalted { at_ 2 [(2, 0xC2)] with flags := ⟨true, false, false, false⟩ }
    = some (0x0005, false) := by decide
theorem test_jp_nz_taken : pcHalted (at_ 2 [(2, 0xC2)]) = some (0x0000, false) := by decide
theorem test_jp_nc_not_taken : pcHalted { at_ 0x0101 [(0x101, 0xD2), (0x103, 0x01)] with
    flags := ⟨false, false, false, true⟩ } = some (0x0104, false) := by decide
theorem test_jp_c_taken : pcHalted { at_ 0x0200 [(0x200, 0xDA), (0x201, 0xFF), (0x202, 0xFF)] with
    flags := ⟨false, false, false, true⟩ } = some (0xFFFF, false) := by decide
theorem test_jp_c_ignores_other_flags : pcHalted { at_ 0 [(0, 0xDA), (1, 0x34), (2, 0x12)] with
    flags := ⟨true, true, true, false⟩ } = some (0x0003, false) := by decide
theorem test_undefined_byte : stepReport Config.standard (at_ 0x20 [(0x20, 0xFD)])
    = ⟨at_ 0x20 [(0x20, 0xFD)], .decodeError 0xFD false, [0x20]⟩ := by decide
theorem test_escaped_byte_wraps : stepReport Config.standard (at_ 0xFFFF [(0, 0x37), (0xFFFF, 0xCB)])
    = ⟨at_ 0xFFFF [(0, 0x37), (0xFFFF, 0xCB)], .decodeError 0x37 true, [0xFFFF, 0x0000]⟩ := by decide
theorem test_escape_twice : faultOf (step (at_ 0x10 [(0x10, 0xCB), (0x11, 0xCB)]))
    = some (.decodeError 0xCB true) := by decide
theorem test_halted_rejected : stepReport Config.standard { at_ 6 [(6, 0x03)] with halted := true }
    = ⟨{ at_ 6 [(6, 0x03)] with halted := true }, .halted, []⟩ := by decide
theorem test_unimplemented : stepReport twoUnhandled (at_ 0 [(0, 0x33)])
    = ⟨at_ 0 [(0, 0x33)], .unimplemented "INC16(SP)", [0]⟩ := rfl
theorem test_same_byte_standard : faultOf (step (at_ 0 [(0, 0x33)])) = some (.decodeError 0x33 false) := by decide
theorem test_first_step_after_reset_add : afPc (State.reset.withFetchWord 8 0x80) = some (0x00, 0x80, 0x0001) := by
  decide
theorem test_first_step_after_reset_jump : pcHalted (State.reset.withFetchWord 24 0x8000C3) = some (0x8000, false) := by
  decide
theorem test_write_of_unlisted_removes : ((at_ 0 [(1, 0x05), (2, 0x06)]).mem.write 1 0x00).cells = [(2, 0x06)] := by
  decide
theorem test_write_sorts : ((at_ 0 [(1, 0x05), (9, 0x06)]).mem.write 4 0x07).cells
    = [(1, 0x05), (4, 0x07), (9, 0x06)] := by decide
theorem test_observe_af : { at_ 0 [] with a := 0x01, flags := ⟨true, false, true, true⟩ }.observe (.pair .af)
    = .word 0x01B0 := by decide

/-! ## Witnesses: concrete states that meet each statement's hypotheses -/

theorem witness_InvariantAtReset : (Memory.mk [(0, 0x76), (0xFFFF, 0x01)]).wf := by decide

theorem witness_StepKeepsInvariant :
    ∃ t, step (at_ 0 [(0, 0x76)]) = .next t ∧ (at_ 0 [(0, 0x76)]).Inv := ⟨_, rfl, by decide⟩

theorem witness_EventsKeepInvariant :
    (at_ 0 [(0, 0x76)]).Inv ∧ ∀ init surface,
      Event.reset init surface ∈ [Event.step, .supplierWrite 0xFFFF 0x00,
        .reset ⟨0, 0, 0, 0, 0, 0, 0, 0xFF, 0, 0⟩ ⟨[(0, 0x03)]⟩] → surface.wf := by
  refine ⟨by decide, fun init surface h => ?_⟩
  simp only [List.mem_cons, List.not_mem_nil, or_false, reduceCtorEq, false_or, Event.reset.injEq] at h
  rw [h.2]
  decide

theorem witness_PairWriteSetsBothHalves :
    (Pair.hl, Reg8.h, Reg8.l) ∈ [(Pair.bc, Reg8.b, Reg8.c), (Pair.de, .d, .e), (Pair.hl, .h, .l)] := by decide

theorem witness_FRegisterMasksLowNibble : Reg8.a ≠ Reg8.f := by decide

theorem witness_HliReadsThenIncrements : { at_ 0 [] with h := 0xFF, l := 0xFF }.pair .hl = 0xFFFF := by decide

theorem witness_HldReadsThenDecrements : State.reset.pair .hl = 0x0000 := by decide

theorem witness_CanonicalMemoriesThatReadAlikeAreEqual :
    Memory.wf ⟨[(0xFFFF, 0x01)]⟩ ∧ Memory.wf (Memory.empty.write 0xFFFF 0x01)
      ∧ ∀ addr, Memory.read ⟨[(0xFFFF, 0x01)]⟩ addr = (Memory.empty.write 0xFFFF 0x01).read addr :=
  ⟨by decide, by decide, fun _ => rfl⟩

theorem witness_WordReadIsLittleEndian :
    (Memory.mk [(0, 0x12), (0xFFFF, 0x34)]).read 0xFFFF = 0x34
      ∧ (Memory.mk [(0, 0x12), (0xFFFF, 0x34)]).read (0xFFFF + 1) = 0x12 := by decide

theorem witness_StandardTablesDecode :
    (0xFF : Byte) ∉ [(0x00 : Byte), 0x03, 0x13, 0x23, 0x76, 0x80, 0x81, 0x82, 0x83, 0x84, 0x85, 0x87,
      0xC2, 0xC3, 0xCA, 0xD2, 0xDA] := by decide

theorem witness_DecodeIsTotal_unhandled :
    twoUnhandled.wellFormed = true ∧ ⟨true, 0x37, "EXT(37)"⟩ ∈ twoUnhandled.unhandled
      ∧ ¬((true : Bool) = false ∧ (0x37 : Byte) ∈ twoUnhandled.opcodes.bytes) :=
  ⟨by decide, .tail _ (.head _), by decide⟩

theorem witness_DecodeIsTotal_error :
    ¬((false : Bool) = false ∧ (0xFD : Byte) ∈ twoUnhandled.opcodes.bytes)
      ∧ ∀ u ∈ twoUnhandled.unhandled, ¬(u.ext = false ∧ u.byte = 0xFD) := by decide

theorem witness_DecodeOfEncode_instr :
    twoUnhandled.wellFormed = true
      ∧ ∀ op, Instr.prefixed 0x00 = .prefixed op → twoUnhandled.unhandledTag true op = none :=
  ⟨by decide, fun op h => by cases h; rfl⟩

theorem witness_DecodeOfEncode_unhandled :
    Instr.prefixed 0x37 = .prefixed 0x37 ∧ twoUnhandled.unhandledTag true 0x37 = some "EXT(37)" := ⟨rfl, rfl⟩

theorem witness_EncodeOfDecode :
    decodeWith Config.standard [0xDA, 0xFF, 0xFF, 0x76] = .instr (.jpC 0xFFFF) [0x76] := by decide

theorem witness_StepRunsTheDecodedInstruction :
    (at_ 0xFFFF [(0, 0x34), (1, 0x12), (0xFFFF, 0xC3)]).halted = false
      ∧ decodeWith Config.standard ((at_ 0xFFFF [(0, 0x34), (1, 0x12), (0xFFFF, 0xC3)]).mem.window 0xFFFF 3)
        = .instr (.jp 0x1234) [] := by decide

theorem witness_PlacedWordIsTheNextInstruction : decodeTableWord 24 0xFFFFDA = some (.jpC 0xFFFF) := by decide

theorem witness_HaltedStepIsRejected : { at_ 0 [(0, 0xFD)] with halted := true }.halted = true := by decide

theorem witness_UndefinedByteIsDecodeError :
    (at_ 0xFFFF [(0xFFFF, 0xFF)]).halted = false
      ∧ (at_ 0xFFFF [(0xFFFF, 0xFF)]).mem.read 0xFFFF ≠ twoUnhandled.opcodes.escape
      ∧ (at_ 0xFFFF [(0xFFFF, 0xFF)]).mem.read 0xFFFF ∉ twoUnhandled.opcodes.bytes
      ∧ twoUnhandled.unhandledTag false ((at_ 0xFFFF [(0xFFFF, 0xFF)]).mem.read 0xFFFF) = none :=
  ⟨by decide, by decide, by decide, rfl⟩

theorem witness_EscapedByteIsDecodeError :
    (at_ 0xFFFF [(0, 0x36), (0xFFFF, 0xCB)]).halted = false
      ∧ (at_ 0xFFFF [(0, 0x36), (0xFFFF, 0xCB)]).mem.read 0xFFFF = twoUnhandled.opcodes.escape
      ∧ twoUnhandled.unhandledTag true ((at_ 0xFFFF [(0, 0x36), (0xFFFF, 0xCB)]).mem.read (0xFFFF + 1)) = none :=
  ⟨by decide, by decide, rfl⟩

theorem witness_UnhandledOpcodeIsUnimplemented_plain :
    twoUnhandled.wellFormed = true ∧ ⟨false, 0x33, "INC16(SP)"⟩ ∈ twoUnhandled.unhandled
      ∧ (at_ 0 [(0, 0x33)]).halted = false ∧ (at_ 0 [(0, 0x33)]).mem.read 0 = 0x33 :=
  ⟨by decide, .head _, by decide, by decide⟩

theorem witness_UnhandledOpcodeIsUnimplemented_extended :
    ⟨true, 0x37, "EXT(37)"⟩ ∈ twoUnhandled.unhandled
      ∧ (at_ 0xFFFF [(0, 0x37), (0xFFFF, 0xCB)]).mem.read 0xFFFF = twoUnhandled.opcodes.escape
      ∧ (at_ 0xFFFF [(0, 0x37), (0xFFFF, 0xCB)]).mem.read (0xFFFF + 1) = 0x37 :=
  ⟨.tail _ (.head _), by decide, by decide⟩

theorem witness_OnlyOkCommits_error : (stepReport Config.standard (at_ 0 [(0, 0x01)])).result ≠ .ok := by decide
theorem witness_OnlyOkCommits_halted :
    (stepReport Config.standard { at_ 0 [] with halted := true }).result ≠ .ok := by decide
theorem witness_OnlyOkCommits_unimplemented : (stepReport twoUnhandled (at_ 0 [(0, 0x33)])).result ≠ .ok := by
  intro h; cases h

theorem witness_SupplierRecoversFromDecodeError :
    (stepReport Config.standard (at_ 0xFFFF [(0xFFFF, 0xFD)])).result = .decodeError 0xFD false := by decide

theorem witness_StepReadsInOrder :
    Config.standard.wellFormed = true
      ∧ (at_ 0xFFFF [(0xFFFF, 0xCB)]).mem.read 0xFFFF = Config.standard.opcodes.escape
      ∧ (at_ 0xFFFF [(0xFFFF, 0xDA)]).mem.read 0xFFFF ∈ jumpBytes Config.standard.opcodes
      ∧ (at_ 0xFFFF [(0xFFFF, 0x87)]).mem.read 0xFFFF ≠ Config.standard.opcodes.escape
      ∧ (at_ 0xFFFF [(0xFFFF, 0x87)]).mem.read 0xFFFF ∉ jumpBytes Config.standard.opcodes
      ∧ (at_ 0xFFFF [(0xFFFF, 0x87)]).halted = false := by decide

theorem witness_StepDependsOnlyOnBytesRead :
    stepReads Config.standard (at_ 0xFFFF [(0, 0x05), (0xFFFF, 0xC3)]) = [0xFFFF, 0x0000, 0x0001]
      ∧ ∀ addr ∈ [(0xFFFF : Word), 0x0000, 0x0001],
        Memory.read ⟨[(0, 0x05), (2, 0x99), (0xFFFF, 0xC3)]⟩ addr
          = (at_ 0xFFFF [(0, 0x05), (0xFFFF, 0xC3)]).mem.read addr := by
  refine ⟨by decide, fun addr h => ?_⟩
  simp only [List.mem_cons, List.not_mem_nil, or_false] at h
  rcases h with rfl | rfl | rfl <;> rfl

theorem witness_StepAtAddByte :
    Config.standard.wellFormed = true ∧ (at_ 0xFFFF [(0xFFFF, 0x87)]).halted = false
      ∧ (at_ 0xFFFF [(0xFFFF, 0x87)]).mem.read 0xFFFF = Config.standard.opcodes.addAA := by decide

theorem witness_AddCarriesFromResult : ∃ t, exec .addAA { at_ 0 [] with a := 0x80 } = .next t := ⟨_, rfl⟩

theorem witness_AddFrame :
    (Instr.addAL, Reg8.l) ∈ addForms ∧ ∃ t, exec .addAL { at_ 0 [] with a := 0xFF, l := 0x01 } = .next t :=
  ⟨by decide, _, rfl⟩

theorem witness_IncrementsPairAndNoFlag : { at_ 0 [] with c := 0xFE }.reg8 .c ≠ 0xFF := by decide

theorem witness_StepAtIncrementByte :
    Config.standard.wellFormed = true ∧ (at_ 0xFFFF [(0xFFFF, 0x23)]).halted = false
      ∧ (at_ 0xFFFF [(0xFFFF, 0x23)]).mem.read 0xFFFF = Config.standard.opcodes.incHL
      ∧ { at_ 0xFFFF [(0xFFFF, 0x23)] with l := 0xFE }.reg8 (pairLo .hl) ≠ 0xFF := by decide

theorem witness_StepAtJumpByte :
    Config.standard.wellFormed = true ∧ (at_ 0xFFFF [(0xFFFF, 0xC2)]).halted = false
      ∧ (at_ 0xFFFF [(0xFFFF, 0xC2)]).mem.read 0xFFFF = Config.standard.opcodes.jpNZ := by decide

theorem witness_NopHaltJumpFrame : ∃ t, exec (.jpC 0xFFFF) (at_ 0xFFFF []) = .next t := ⟨_, rfl⟩

theorem witness_OnlyHaltHalts_halt :
    Config.standard.wellFormed = true
      ∧ ∃ t, stepWith Config.standard (at_ 0xFFFF [(0xFFFF, 0x76)]) = .next t ∧ t.halted = true :=
  ⟨by decide, _, rfl, rfl⟩
theorem witness_OnlyHaltHalts_other :
    ∃ t, stepWith Config.standard (at_ 0 []) = .next t ∧ t.halted = false := ⟨_, rfl, rfl⟩

theorem witness_OnlyAddWritesFlags :
    ∃ t, stepWith Config.standard { at_ 0 [(0, 0x03)] with flags := ⟨false, true, false, false⟩ } = .next t
      ∧ (0x03 : Byte) ∉ addBytes Config.standard.opcodes ∧ t.flags.nf = true := ⟨_, rfl, by decide, rfl⟩

theorem witness_OnlyJumpsTransferControl :
    ∃ t, stepWith Config.standard (at_ 0xFFFF [(0xFFFF, 0x87)]) = .next t
      ∧ (0x87 : Byte) ∉ jumpBytes Config.standard.opcodes := ⟨_, rfl, by decide⟩

theorem witness_OnlyResetChangesSp :
    ∀ ev ∈ [Event.step, .supplierWrite 0xFFFF 0x01, .step], ev.isReset = false := by decide

theorem witness_OnlyResetLeavesHalted :
    { at_ 0 [(0, 0x03)] with halted := true }.halted = true
      ∧ ∀ ev ∈ [Event.supplierWrite 0x0000 0x00, .step], ev.isReset = false := by decide

theorem witness_JumpToSelfLoopsForEver :
    (at_ 0xFFFF [(0, 0xFF), (1, 0xFF), (0xFFFF, 0xC3)]).halted = false
      ∧ (at_ 0xFFFF [(0, 0xFF), (1, 0xFF), (0xFFFF, 0xC3)]).mem.window 0xFFFF 3 = encode (.jp 0xFFFF) := by decide

theorem witness_ZeroMemoryRunsNops :
    (at_ 0xFFFF []).halted = false ∧ ∀ addr, (at_ 0xFFFF []).mem.read addr = 0x00 := ⟨rfl, fun _ => rfl⟩

theorem witness_RunsEndAtHaltOrAtTheError :
    (drive Config.standard 1 (at_ 0xFFFF [(0xFFFF, 0x76)])).outcome = .normal
      ∧ (drive Config.standard 1 (at_ 0 [(0, 0xFD)])).outcome = .stopped (.decodeError 0xFD false)
      ∧ (drive Config.standard 1 { at_ 0 [] with halted := true }).outcome = .stopped .halted
      ∧ (drive Config.standard 1 (at_ 0 [])).outcome = .running := by decide

theorem witness_RunIsTheStepsItExecuted_normal :
    Config.standard.wellFormed = true
      ∧ (drive Config.standard 3 (at_ 0xFFFF [(0, 0x76), (0xFFFF, 0x03)])).executed = 2
      ∧ (drive Config.standard 3 (at_ 0xFFFF [(0, 0x76), (0xFFFF, 0x03)])).outcome = .normal := by decide
theorem witness_RunIsTheStepsItExecuted_stopped :
    (drive Config.standard 3 (at_ 0xFFFF [(0, 0xFD), (0xFFFF, 0x03)])).executed = 1
      ∧ (drive Config.standard 3 (at_ 0xFFFF [(0, 0xFD), (0xFFFF, 0x03)])).outcome
        = .stopped (.decodeError 0xFD false) := by decide

end Sys2Proof.Machine.Tests
end

section
/-!
SUPPORT. The proofs about the state (`10_state.md`): the Flags Codec, the register file and the pair views,
what a step can do by the byte at PC, and what lists of events keep.
-/
namespace Sys2Proof

/-! ## Bytes and words -/

theorem loByte_eq_ofNat (v : Word) : loByte v = BitVec.ofNat 8 (v.toNat % 256) := by
  apply BitVec.eq_of_toNat_eq
  rw [loByte_toNat, BitVec.toNat_ofNat]
  omega

/-- A mask on a word is a mask on each of its bytes. -/
theorem concat_and_concat (hi lo hi' lo' : Byte) :
    concat hi lo &&& concat hi' lo' = concat (hi &&& hi') (lo &&& lo') := BitVec.and_append

/-! ## Descriptors and the plain table -/

/-- Without an immediate, what would stand in its place does not matter. -/
theorem complete_eq_of_not_hasImm16 {d : Descriptor} (h : d.hasImm16 = false) (nn : Word) :
    d.complete 0 = d.complete nn := by
  cases d with
  | nop | halt => rfl
  | add r => cases r <;> rfl
  | inc16 p => cases p <;> rfl
  | jp cc => cases h

theorem complete_jp_injective {cc : Cond} {nn target : Word}
    (h : (Descriptor.jp cc).complete nn = (Descriptor.jp cc).complete target) : nn = target := by
  cases cc <;> exact by injection h

/-- An instruction that completes two descriptors completes one. -/
theorem descriptor_eq_of_complete_eq {d d' : Descriptor} {nn nn' : Word}
    (h : d.complete nn = d'.complete nn') : d = d' := by
  simpa using congrArg Instr.descriptor h

/-- Under a well-formed assignment a byte has one row in the plain table at most (R64). -/
theorem plainTable_functional {o : Opcodes} (ho : o.wellFormed = true) {b : Byte} {d d' : Descriptor}
    (h : (b, d) ∈ plainTable o) (h' : (b, d') ∈ plainTable o) : d = d' := by
  obtain ⟨-, hnodup, -⟩ := o.wellFormed_iff.1 ho
  have hkeys : ((plainTable o).map Prod.fst).Nodup := by rwa [plainTable_keys]
  exact Option.some.inj ((lookup_eq_of_mem hkeys h).symm.trans (lookup_eq_of_mem hkeys h'))

/-- The row of Halt is the one at Halt's byte (R64). -/
theorem eq_halt_byte_iff {o : Opcodes} (ho : o.wellFormed = true) {b : Byte} {d : Descriptor}
    (h : (b, d) ∈ plainTable o) : b = o.halt ↔ d = .halt := by
  constructor
  · rintro rfl
    exact plainTable_functional ho h (by simp [plainTable])
  · rintro rfl
    simpa [plainTable] using h

end Sys2Proof

namespace Sys2Proof.Machine

/-! ## The Flags Codec (R15, R16) -/

theorem flagBit_getLsbD (on : Bool) (weight : Byte) (i : Nat) :
    (flagBit on weight).getLsbD i = (on && weight.getLsbD i) := by
  cases on <;> simp [flagBit]

/-- The four weights share no bit, so their sum is their union. -/
theorem Flags.toByte_eq_or (f : Flags) :
    f.toByte = flagBit f.zf 0x80 ||| flagBit f.nf 0x40 ||| flagBit f.hf 0x20 ||| flagBit f.cf 0x10 := by
  obtain ⟨z, n, h, c⟩ := f
  revert z n h c; decide

theorem Flags.toByte_toNat (f : Flags) :
    f.toByte.toNat
      = f.zf.toNat * 0x80 + f.nf.toNat * 0x40 + f.hf.toNat * 0x20 + f.cf.toNat * 0x10 := by
  obtain ⟨z, n, h, c⟩ := f
  revert z n h c; decide

/-- A byte packed from flags has those flags, so packing is injective (R15). -/
theorem Flags.toByte_injective {f g : Flags} (h : f.toByte = g.toByte) : f = g := by
  rw [← f.fromByte_toByte_flags, h, g.fromByte_toByte_flags]

theorem Flags.fromByte_and_highNibble (v : Byte) : Flags.fromByte (v &&& 0xF0) = Flags.fromByte v := by
  simp [Flags.fromByte]

/-- Through the flags and back a byte loses its low nibble (R16). -/
@[simp] theorem Flags.toByte_fromByte (v : Byte) : (Flags.fromByte v).toByte = v &&& 0xF0 := by
  rw [Flags.toByte_eq_or]
  apply BitVec.eq_of_getLsbD_eq
  intro i hi
  simp only [BitVec.getLsbD_or, BitVec.getLsbD_and, flagBit_getLsbD, Flags.fromByte]
  interval_cases i <;> simp

theorem Flags.toByte_and_highNibble (f : Flags) : f.toByte &&& 0xF0 = f.toByte := by
  rw [← Flags.toByte_fromByte, f.fromByte_toByte_flags]

/-! ## The register file: F and the pair views (R17 to R21) -/

@[simp] theorem State.reg8_f (s : State) : s.reg8 .f = s.flags.toByte := rfl

@[simp] theorem State.setReg8_f_flags (s : State) (v : Byte) :
    (s.setReg8 .f v).flags = Flags.fromByte v := rfl

theorem pairHi_ne_f (p : Pair) : pairHi p ≠ .f := by cases p <;> decide

theorem pairHi_ne_pairLo (p : Pair) : pairHi p ≠ pairLo p := by cases p <;> decide

theorem pairLo_ne_f {p : Pair} (h : p ≠ .af) : pairLo p ≠ .f := by revert h; cases p <;> decide

theorem State.pair_toNat (s : State) (p : Pair) :
    (s.pair p).toNat = (s.reg8 (pairHi p)).toNat * 256 + (s.reg8 (pairLo p)).toNat := concat_toNat _ _

/-- The high half of a pair reads the high byte written (R19, R21). -/
theorem State.setPair_reg8_hi (s : State) (p : Pair) (v : Word) :
    (s.setPair p v).reg8 (pairHi p) = hiByte v := by
  rw [State.setPair, State.setReg8_reg8_of_ne _ _ _ (pairHi_ne_pairLo p),
    State.setReg8_reg8_same _ _ _ (pairHi_ne_f p)]

/-- The low half of a general pair reads the low byte written (R19). -/
theorem State.setPair_reg8_lo (s : State) {p : Pair} (hp : p ≠ .af) (v : Word) :
    (s.setPair p v).reg8 (pairLo p) = loByte v := State.setReg8_reg8_same _ _ _ (pairLo_ne_f hp)

/-- A pair write changes no register outside the pair (R19, R21). -/
theorem State.setPair_reg8_of_ne (s : State) (p : Pair) (v : Word) {q : Reg8} (hhi : q ≠ pairHi p)
    (hlo : q ≠ pairLo p) : (s.setPair p v).reg8 q = s.reg8 q := by
  rw [State.setPair, State.setReg8_reg8_of_ne _ _ _ hlo, State.setReg8_reg8_of_ne _ _ _ hhi]

/-- A general pair reads back exactly what was written (R19). -/
theorem State.setPair_pair_same (s : State) {p : Pair} (hp : p ≠ .af) (v : Word) :
    (s.setPair p v).pair p = v := by
  rw [State.pair, State.setPair_reg8_hi, State.setPair_reg8_lo s hp, concat_hiByte_loByte]

theorem State.setPair_af_flags (s : State) (v : Word) :
    (s.setPair .af v).flags = Flags.fromByte (loByte v) := rfl

/-- AF reads back without bits 3 to 0 (R21). -/
theorem State.setPair_pair_af (s : State) (v : Word) : (s.setPair .af v).pair .af = v &&& 0xFFF0 := by
  have hlo : (s.setPair .af v).reg8 .f = loByte v &&& 0xF0 := by simp [State.setPair_af_flags]
  calc (s.setPair .af v).pair .af
      = concat (hiByte v) ((s.setPair .af v).reg8 .f) := by
        rw [← State.setPair_reg8_hi s .af v]; rfl
    _ = concat (hiByte v &&& 0xFF) (loByte v &&& 0xF0) := by
        rw [hlo, show (0xFF : Byte) = BitVec.allOnes 8 from rfl, BitVec.and_allOnes]
    _ = concat (hiByte v) (loByte v) &&& concat 0xFF 0xF0 := (concat_and_concat _ _ _ _).symm
    _ = v &&& 0xFFF0 := by rw [concat_hiByte_loByte]; rfl

/-- AF reads with bits 3 to 0 zero (R20). -/
theorem State.pair_af_and_lowNibble (s : State) : s.pair .af &&& 0x000F = 0 := by
  calc s.pair .af &&& 0x000F
      = concat (s.a &&& 0) (s.flags.toByte &&& 0x0F) := concat_and_concat _ _ 0x00 0x0F
    _ = 0 := by rw [Flags.toByte_low_nibble]; simp [concat]

/-! ## What a step can do, by the byte at PC -/

/-- A fetched instruction is an extended opcode, or completes the descriptor of the byte at PC with the
two bytes after it (R84 to R86). -/
theorem fetchInstr_instr_cases {cfg : Config} {m : Memory} {pc : Word} {i : Instr}
    (h : (fetchInstr cfg m pc).1 = .instr i) :
    (∃ op, i = .prefixed op)
      ∨ ∃ d, (m.read pc, d) ∈ plainTable cfg.opcodes
          ∧ i = d.complete (concat (m.read (pc + 2)) (m.read (pc + 1))) := by
  have hpc : pc + 1 + 1 = pc + 2 := by rw [BitVec.add_assoc]; rfl
  rw [fetchInstr_eq, hpc] at h
  split at h
  · left
    split at h <;> cases h <;> exact ⟨_, rfl⟩
  · right
    split at h
    · next d hd =>
      refine ⟨d, mem_plainTable_of_decodeByte hd, ?_⟩
      split at h
      · cases h; rfl
      · next himm => cases h; exact complete_eq_of_not_hasImm16 (by simpa using himm) _
    · cases h
    · cases h

/-- Everything a step that answers a next state can do (R89, R90): the machine was running, and the row of
the byte at PC in the plain table says what was done. -/
theorem stepWith_next_cases {cfg : Config} {s t : State} (h : stepWith cfg s = .next t) :
    s.halted = false
      ∧ (((s.mem.read s.pc, .nop) ∈ plainTable cfg.opcodes ∧ t = s.advance 1)
        ∨ ((s.mem.read s.pc, .halt) ∈ plainTable cfg.opcodes ∧ t = (s.setHalted true).advance 1)
        ∨ (∃ r, (s.mem.read s.pc, .add r) ∈ plainTable cfg.opcodes
            ∧ t = (s.addToA (addOperandReg r)).advance 1)
        ∨ (∃ p, (s.mem.read s.pc, .inc16 p) ∈ plainTable cfg.opcodes
            ∧ t = (s.incPair (incOperandPair p)).advance 1)
        ∨ (∃ cc, (s.mem.read s.pc, .jp cc) ∈ plainTable cfg.opcodes
            ∧ t = s.jumpIf cc (concat (s.mem.read (s.pc + 2)) (s.mem.read (s.pc + 1))))) := by
  obtain ⟨hrun, i, hfetch, hexec⟩ := stepWith_next h
  refine ⟨hrun, ?_⟩
  obtain ⟨op, rfl⟩ | ⟨d, hrow, hi⟩ := fetchInstr_instr_cases hfetch
  · cases hexec
  obtain ⟨rfl, rfl⟩ | ⟨rfl, rfl⟩ | ⟨r, rfl, rfl⟩ | ⟨p, rfl, rfl⟩ | ⟨cc, nn, rfl, rfl⟩ :=
    exec_next_cases hexec
  · obtain rfl := descriptor_eq_of_complete_eq (d := .nop) (nn := 0) hi
    exact .inl ⟨hrow, rfl⟩
  · obtain rfl := descriptor_eq_of_complete_eq (d := .halt) (nn := 0) hi
    exact .inr (.inl ⟨hrow, rfl⟩)
  · obtain rfl := descriptor_eq_of_complete_eq hi
    exact .inr (.inr (.inl ⟨r, hrow, rfl⟩))
  · obtain rfl := descriptor_eq_of_complete_eq hi
    exact .inr (.inr (.inr (.inl ⟨p, hrow, rfl⟩)))
  · obtain rfl := descriptor_eq_of_complete_eq hi
    obtain rfl := complete_jp_injective hi
    exact .inr (.inr (.inr (.inr ⟨cc, hrow, rfl⟩)))

theorem add_byte_mem_addBytes {o : Opcodes} {b : Byte} {r : AddOperand}
    (h : (b, .add r) ∈ plainTable o) : b ∈ addBytes o := by
  cases r <;> (simp [plainTable] at h; simp [addBytes, h])

/-! ## Lists of events -/

@[simp] theorem State.setMem_setMem (s : State) (m m' : Memory) : (s.setMem m).setMem m' = s.setMem m' := rfl

/-- What every event of a list keeps, the whole list keeps. -/
theorem State.afterAll_keeps {cfg : Config} {P : State → Prop} {events : List Event}
    (hkeep : ∀ ev ∈ events, ∀ t, P t → P (t.after cfg ev)) {s : State} (hs : P s) :
    P (s.afterAll cfg events) := by
  induction events generalizing s with
  | nil => exact hs
  | cons ev rest ih =>
    exact ih (fun e he => hkeep e (List.mem_cons_of_mem _ he)) (hkeep ev List.mem_cons_self s hs)

/-- A step, answered or not, leaves memory and SP alone (R26, R42). -/
theorem stepReport_state_frame (cfg : Config) (s : State) :
    (stepReport cfg s).state.mem = s.mem ∧ (stepReport cfg s).state.sp = s.sp := by
  rcases stepReport_state_cases cfg s with h | h
  · rw [h]; exact ⟨rfl, rfl⟩
  · obtain ⟨-, i, -, hexec⟩ := stepWith_next h
    exact exec_frame hexec

/-- A halted machine keeps its state at a step (R81; D2, log 6). -/
theorem stepReport_state_of_halted {cfg : Config} {s : State} (h : s.halted = true) :
    (stepReport cfg s).state = s := by
  simp only [stepReport, stepWith_halted h, stateAfter]

theorem State.after_sp_of_not_isReset (cfg : Config) (s : State) {ev : Event} (h : ev.isReset = false) :
    (s.after cfg ev).sp = s.sp := by
  cases ev with
  | step => exact (stepReport_state_frame cfg s).2
  | reset init surface => cases h
  | supplierWrite addr v => rfl

/-- An event that is no reset can change the memory of a halted machine and nothing else (R27, R160). -/
theorem State.after_eq_setMem_of_halted (cfg : Config) {s : State} (hs : s.halted = true) {ev : Event}
    (h : ev.isReset = false) : s.after cfg ev = s.setMem (s.after cfg ev).mem := by
  cases ev with
  | step =>
    have hstep : s.after cfg .step = s := stepReport_state_of_halted hs
    rw [hstep]; rfl
  | reset init surface => cases h
  | supplierWrite addr v => rfl

/-! ## The statements -/

/-- Settles O56: "equal to the halted state but for memory" is kept by every event that is no reset. -/
theorem onlyResetLeavesHalted : Obligations.OnlyResetLeavesHalted := by
  intro cfg events s hs hevents
  refine State.afterAll_keeps (P := fun t => t = s.setMem t.mem) (fun ev hev t ht => ?_) rfl
  have hhalted : t.halted = true := by rw [ht]; exact hs
  calc t.after cfg ev
      = t.setMem (t.after cfg ev).mem := State.after_eq_setMem_of_halted cfg hhalted (hevents ev hev)
    _ = (s.setMem t.mem).setMem (t.after cfg ev).mem := by rw [← ht]
    _ = s.setMem (t.after cfg ev).mem := State.setMem_setMem _ _ _

/-- Settles O12: the high half of AF is A, the low half F, whose write drops the low nibble. -/
theorem afWriteMasksLowNibble : Obligations.AfWriteMasksLowNibble := by
  intro s v
  refine ⟨?_, ?_, State.setPair_pair_af s v, fun q ha hf => State.setPair_reg8_of_ne s .af v ha hf,
    State.setPair_pc _ _ _, State.setPair_sp _ _ _, State.setPair_halted _ _ _, State.setPair_mem _ _ _⟩
  · rw [← hiByte_toNat, ← State.setPair_reg8_hi s .af v]; rfl
  · rw [State.setPair_af_flags, loByte_eq_ofNat]

/-- Settles O52: by the row of the byte at PC, of which only Halt's writes HALTED. -/
theorem onlyHaltHalts : Obligations.OnlyHaltHalts := by
  intro cfg s t hcfg hstep
  obtain ⟨ho, -, -⟩ := cfg.wellFormed_iff.1 hcfg
  obtain ⟨hrun, ⟨hrow, rfl⟩ | ⟨hrow, rfl⟩ | ⟨r, hrow, rfl⟩ | ⟨p, hrow, rfl⟩ | ⟨cc, hrow, rfl⟩⟩ :=
    stepWith_next_cases hstep
  · simp [eq_halt_byte_iff ho hrow, hrun]
  · simp [eq_halt_byte_iff ho hrow]
  · simp [eq_halt_byte_iff ho hrow, hrun]
  · simp [eq_halt_byte_iff ho hrow, hrun]
  · simp [eq_halt_byte_iff ho hrow, hrun, State.jumpIf_eq_setPc]

/-- Settles O53: by the row of the byte at PC; Add clears NF and every other row keeps the flags. -/
theorem onlyAddWritesFlags : Obligations.OnlyAddWritesFlags := by
  intro cfg s t hstep
  obtain ⟨-, ⟨-, rfl⟩ | ⟨-, rfl⟩ | ⟨r, hrow, rfl⟩ | ⟨p, -, rfl⟩ | ⟨cc, -, rfl⟩⟩ :=
    stepWith_next_cases hstep
  · exact ⟨fun _ => rfl, id⟩
  · exact ⟨fun _ => rfl, id⟩
  · exact ⟨fun hno => absurd (add_byte_mem_addBytes hrow) hno, fun hnf => by simp [add8_snd] at hnf⟩
  · have hflags : ((s.incPair (incOperandPair p)).advance 1).flags = s.flags :=
      State.setPair_flags_of_ne _ _ _ (by cases p <;> decide)
    exact ⟨fun _ => hflags, fun hnf => hflags ▸ hnf⟩
  · simp [State.jumpIf_eq_setPc]

/-- Settles O55: every event that is no reset keeps SP. -/
theorem onlyResetChangesSp : Obligations.OnlyResetChangesSp := by
  intro cfg events s hevents
  refine State.afterAll_keeps (P := fun t => t.sp = s.sp) (fun ev hev t ht => ?_) rfl
  exact (State.after_sp_of_not_isReset cfg t (hevents ev hev)).trans ht

/-- Settles O1: construction copies each field, and F goes through the Flags Codec. -/
theorem resetLoadsInit : Obligations.ResetLoadsInit := by
  intro init surface s
  have hf : s.reg8 .f = init.f &&& 0xF0 := Flags.toByte_fromByte init.f
  exact ⟨rfl, rfl, rfl, rfl, rfl, rfl, rfl, rfl, rfl, rfl, rfl, hf, rfl, rfl, rfl, rfl⟩

/-- Settles O6. -/
theorem flagsToByteIsWeightedSum : Obligations.FlagsToByteIsWeightedSum :=
  fun f => ⟨f.toByte_toNat, f.toByte_low_nibble, fun _ => Flags.toByte_injective⟩

/-- Settles O7. -/
theorem flagsFromByteIgnoresLowNibble : Obligations.FlagsFromByteIgnoresLowNibble :=
  ⟨fun _ => rfl, fun v => (Flags.fromByte_and_highNibble v).symm, Flags.fromByte_toByte_flags,
    Flags.toByte_fromByte⟩

/-- Settles O8: F is a view of the flags, so its rules are those of the Flags Codec. -/
theorem fRegisterMasksLowNibble : Obligations.FRegisterMasksLowNibble := by
  intro s v
  exact ⟨s.reg8_f, s.setReg8_f_flags v, Flags.toByte_fromByte v, Flags.toByte_low_nibble _,
    fun r hr => State.setReg8_reg8_of_ne s v .f hr, rfl, rfl, rfl, rfl⟩

/-- Settles O9. -/
theorem pairReadIsHighByteFirst : Obligations.PairReadIsHighByteFirst :=
  fun s => ⟨s.pair_toNat .bc, s.pair_toNat .de, s.pair_toNat .hl⟩

/-- Settles O10: the three rows are the pairs other than AF with their two halves. -/
theorem pairWriteSetsBothHalves : Obligations.PairWriteSetsBothHalves := by
  intro s v row hrow
  obtain ⟨p, hp, rfl⟩ : ∃ p, p ≠ Pair.af ∧ row = (p, pairHi p, pairLo p) := by
    simp only [List.mem_cons, List.not_mem_nil, or_false] at hrow
    obtain rfl | rfl | rfl := hrow
    · exact ⟨.bc, by decide, rfl⟩
    · exact ⟨.de, by decide, rfl⟩
    · exact ⟨.hl, by decide, rfl⟩
  refine ⟨?_, ?_, State.setPair_pair_same s hp v, fun q hhi hlo => State.setPair_reg8_of_ne s p v hhi hlo,
    State.setPair_flags_of_ne _ _ _ hp, State.setPair_pc _ _ _, State.setPair_sp _ _ _,
    State.setPair_halted _ _ _, State.setPair_mem _ _ _⟩
  · rw [State.setPair_reg8_hi, hiByte_toNat]
  · rw [State.setPair_reg8_lo s hp, loByte_toNat]

/-- Settles O11. -/
theorem afReadMasksLowNibble : Obligations.AfReadMasksLowNibble := by
  intro s
  have hread : (s.pair .af).toNat = s.a.toNat * 256 + s.flags.toByte.toNat := s.pair_toNat .af
  exact ⟨by rw [s.reg8_f, Flags.toByte_and_highNibble, hread], hread, s.pair_af_and_lowNibble⟩

/-- Settles O13: HLI reads HL and writes back HL + 1, so the rules of a pair write apply. -/
theorem hliReadsThenIncrements : Obligations.HliReadsThenIncrements := by
  intro s
  have hback : (s.setPair .hl (s.pair .hl + 1)).pair .hl = s.pair .hl + 1 :=
    State.setPair_pair_same s (by decide) _
  rw [State.readHLI]
  refine ⟨rfl, ?_, fun q hh hl => State.setPair_reg8_of_ne s .hl _ hh hl,
    State.setPair_flags_of_ne _ _ _ (by decide), State.setPair_pc _ _ _, State.setPair_sp _ _ _,
    State.setPair_halted _ _ _, State.setPair_mem _ _ _, ?_⟩
  · rw [hback, BitVec.toNat_add]; rfl
  · intro hmax
    exact ⟨hmax, by rw [hback, hmax]; rfl⟩

/-- Settles O14: HLD reads HL and writes back HL - 1, so the rules of a pair write apply. -/
theorem hldReadsThenDecrements : Obligations.HldReadsThenDecrements := by
  intro s
  have hback : (s.setPair .hl (s.pair .hl - 1)).pair .hl = s.pair .hl - 1 :=
    State.setPair_pair_same s (by decide) _
  rw [State.readHLD]
  refine ⟨rfl, ?_, fun q hh hl => State.setPair_reg8_of_ne s .hl _ hh hl,
    State.setPair_flags_of_ne _ _ _ (by decide), State.setPair_pc _ _ _, State.setPair_sp _ _ _,
    State.setPair_halted _ _ _, State.setPair_mem _ _ _, ?_⟩
  · rw [hback]; bv_omega
  · intro hzero
    exact ⟨hzero, by rw [hback, hzero]; rfl⟩

end Sys2Proof.Machine
end

section
/-!
SUPPORT. The proofs about the memory surface (`20_memory.md`): reading after a write, the 16-bit read, which
addresses a step reads, and that a step depends on no other byte and writes none.
-/
namespace Sys2Proof

theorem add_one_add_one (pc : Word) : pc + 1 + 1 = pc + 2 := BitVec.add_assoc pc 1 1

/-! ## The plain table, by byte -/

/-- Under a well-formed assignment the decoder answers the row of the plain table (R64, R66). -/
theorem decodeByte_plain_of_mem {cfg : Config} (ho : cfg.opcodes.wellFormed = true) {b : Byte}
    {d : Descriptor} (h : (b, d) ∈ plainTable cfg.opcodes) : decodeByte cfg b false = .descriptor d := by
  obtain ⟨-, hnodup, -⟩ := cfg.opcodes.wellFormed_iff.1 ho
  have hkeys : ((plainTable cfg.opcodes).map Prod.fst).Nodup := by rwa [plainTable_keys]
  simp [decodeByte, lookup_eq_of_mem hkeys h]

/-- The escape byte has no row in the plain table (R64). -/
theorem ne_escape_of_mem_plainTable {o : Opcodes} (ho : o.wellFormed = true) {b : Byte} {d : Descriptor}
    (h : (b, d) ∈ plainTable o) : b ≠ o.escape := by
  rintro rfl
  obtain ⟨hescape, -, -⟩ := o.wellFormed_iff.1 ho
  exact hescape (plainTable_keys o ▸ List.mem_map_of_mem h)

namespace Machine

/-- The jump bytes are the keys of the plain table's jump rows (R64, R71). -/
theorem mem_jumpBytes_iff {o : Opcodes} {b : Byte} :
    b ∈ jumpBytes o ↔ ∃ cc, (b, .jp cc) ∈ plainTable o := by
  constructor
  · intro h
    simp only [jumpBytes, List.mem_cons, List.not_mem_nil, or_false] at h
    obtain rfl | rfl | rfl | rfl | rfl := h
    · exact ⟨.nz, by simp [plainTable]⟩
    · exact ⟨.always, by simp [plainTable]⟩
    · exact ⟨.z, by simp [plainTable]⟩
    · exact ⟨.nc, by simp [plainTable]⟩
    · exact ⟨.c, by simp [plainTable]⟩
  · rintro ⟨cc, h⟩
    cases cc <;> (simp [plainTable] at h; simp [jumpBytes, h])

/-! ## Reads and writes (R41, R42, R44) -/

theorem Memory.read_write (m : Memory) (addr other : Word) (v : Byte) :
    (m.write addr v).read other = if other = addr then v else m.read other := by
  have haddr : addr.toNat = other.toNat ↔ other = addr := by rw [BitVec.toNat_inj, eq_comm]
  unfold Memory.read Memory.write
  split
  · next hv => simp only [cellAt_eraseCell, haddr, hv]
  · simp only [cellAt_insertCell, haddr]

theorem Memory.read16_toNat (m : Memory) (addr : Word) :
    (m.read16 addr).toNat = (m.read (addr + 1)).toNat * 256 + (m.read addr).toNat := concat_toNat _ _

/-! ## The addresses a fetch reads (R46) -/

section
variable {cfg : Config} {m : Memory} {pc : Word}

theorem fetchInstr_reads_of_escape (h : m.read pc = cfg.opcodes.escape) :
    (fetchInstr cfg m pc).2.reads = [pc, pc + 1] := by
  rw [fetchInstr_eq, if_pos h]

theorem fetchInstr_reads_of_jump (hesc : m.read pc ≠ cfg.opcodes.escape) {cc : Cond}
    (h : decodeByte cfg (m.read pc) false = .descriptor (.jp cc)) :
    (fetchInstr cfg m pc).2.reads = [pc, pc + 1, pc + 2] := by
  rw [fetchInstr_eq, if_neg hesc, h, add_one_add_one]
  rfl

theorem fetchInstr_reads_of_other (hesc : m.read pc ≠ cfg.opcodes.escape)
    (h : ∀ cc, decodeByte cfg (m.read pc) false ≠ .descriptor (.jp cc)) :
    (fetchInstr cfg m pc).2.reads = [pc] := by
  rw [fetchInstr_eq, if_neg hesc]
  cases hd : decodeByte cfg (m.read pc) false with
  | descriptor d =>
    cases d with
    | jp cc => exact absurd hd (h cc)
    | nop | halt | add r | inc16 p => rfl
  | unhandled tag => rfl
  | error b ext => rfl

/-- A fetch depends on memory only through the bytes it reads: its case is decided by the byte at PC, and
each case looks at the bytes of its own list of reads. -/
theorem fetchInstr_congr {m' : Memory}
    (h : ∀ addr ∈ (fetchInstr cfg m pc).2.reads, m'.read addr = m.read addr) :
    fetchInstr cfg m' pc = fetchInstr cfg m pc := by
  by_cases hesc : m.read pc = cfg.opcodes.escape
  · rw [fetchInstr_reads_of_escape hesc] at h
    rw [fetchInstr_eq, fetchInstr_eq, h pc (by simp), h (pc + 1) (by simp), if_pos hesc, if_pos hesc]
  cases hd : decodeByte cfg (m.read pc) false with
  | descriptor d =>
    cases d with
    | jp cc =>
      rw [fetchInstr_reads_of_jump hesc hd] at h
      rw [fetchInstr_eq, fetchInstr_eq, add_one_add_one, h pc (by simp), h (pc + 1) (by simp),
        h (pc + 2) (by simp)]
    | nop | halt | add r | inc16 p =>
      rw [fetchInstr_reads_of_other hesc (by simp [hd])] at h
      rw [fetchInstr_eq, fetchInstr_eq, h pc (by simp), if_neg hesc, if_neg hesc, hd]
      rfl
  | unhandled tag | error b ext =>
    rw [fetchInstr_reads_of_other hesc (by simp [hd])] at h
    rw [fetchInstr_eq, fetchInstr_eq, h pc (by simp), if_neg hesc, if_neg hesc, hd]

end

theorem stepReads_running {cfg : Config} {s : State} (h : s.halted = false) :
    stepReads cfg s = (fetchInstr cfg s.mem s.pc).2.reads := by simp [stepReads, h]

/-! ## Stepping over another memory -/

/-- An outcome over another memory: the next state, if there is one, holds `m`. -/
def outcomeOver (m : Memory) : StepOutcome → StepOutcome
  | .next t => .next (t.setMem m)
  | .fault f => .fault f
  | .refused r => .refused r

@[simp] theorem resultOf_outcomeOver (m : Memory) (o : StepOutcome) :
    resultOf (outcomeOver m o) = resultOf o := by
  cases o <;> rfl

@[simp] theorem stateAfter_outcomeOver (s : State) (m : Memory) (o : StepOutcome) :
    stateAfter (s.setMem m) (outcomeOver m o) = (stateAfter s o).setMem m := by
  cases o <;> rfl

theorem State.jumpIf_setMem (s : State) (m : Memory) (cc : Cond) (nn : Word) :
    (s.setMem m).jumpIf cc nn = (s.jumpIf cc nn).setMem m := by
  rw [State.jumpIf_eq_setPc, State.jumpIf_eq_setPc]; rfl

/-- No instruction looks at memory: its operands were fetched before dispatch (R89, R130). -/
theorem exec_setMem (i : Instr) (s : State) (m : Memory) :
    exec i (s.setMem m) = outcomeOver m (exec i s) := by
  cases i with
  | nop | halt | prefixed op => rfl
  | addAB | addAC | addAD | addAE | addAH | addAL | addAA => rfl
  | incBC | incDE | incHL => rfl
  | jpNZ nn | jp nn | jpZ nn | jpNC nn | jpC nn =>
    exact congrArg Host.Outcome.next (s.jumpIf_setMem m _ nn)

theorem dispatch_setMem (f : Fetched) (s : State) (m : Memory) :
    dispatch f (s.setMem m) = outcomeOver m (dispatch f s) := by
  cases f with
  | instr i => exact exec_setMem i s m
  | unhandled tag | error b ext => rfl

/-- Over a memory that agrees at the addresses it reads, a step answers the same and reads the same. -/
theorem stepWith_setMem_of_agree {cfg : Config} {s : State} {m : Memory}
    (h : ∀ addr ∈ stepReads cfg s, m.read addr = s.mem.read addr) :
    stepWith cfg (s.setMem m) = outcomeOver m (stepWith cfg s)
      ∧ stepReads cfg (s.setMem m) = stepReads cfg s := by
  cases hrun : s.halted with
  | true => simp [stepWith, stepReads, hrun, outcomeOver]
  | false =>
    rw [stepReads_running hrun] at h
    have hfetch : fetchInstr cfg m s.pc = fetchInstr cfg s.mem s.pc := fetchInstr_congr h
    have hrun' : (s.setMem m).halted = false := hrun
    rw [stepWith_running hrun, stepWith_running hrun', stepReads_running hrun, stepReads_running hrun',
      State.setMem_mem, State.setMem_pc, hfetch]
    exact ⟨dispatch_setMem _ s m, rfl⟩

/-! ## The statements -/

/-- Settles O36: over the bytes it reads the fetch is the same, and what is dispatched does not look at
memory. -/
theorem stepDependsOnlyOnBytesRead : Obligations.StepDependsOnlyOnBytesRead := by
  intro cfg s m hagree
  obtain ⟨hstep, hreads⟩ := stepWith_setMem_of_agree hagree
  simp [stepReport, hstep, hreads]

/-- Settles O15. -/
theorem readAfterWrite : Obligations.ReadAfterWrite := Memory.read_write

/-- Settles O35: by the byte at PC, which is the escape byte, that of a jump's row, or neither. -/
theorem stepReadsInOrder : Obligations.StepReadsInOrder := by
  intro cfg s hcfg hrun
  obtain ⟨ho, -, -⟩ := cfg.wellFormed_iff.1 hcfg
  rw [stepReads_running hrun]
  refine ⟨fetchInstr_reads_of_escape, fun hjump => ?_, fun hesc hjump => ?_⟩
  · obtain ⟨cc, hrow⟩ := mem_jumpBytes_iff.1 hjump
    exact fetchInstr_reads_of_jump (ne_escape_of_mem_plainTable ho hrow) (decodeByte_plain_of_mem ho hrow)
  · exact fetchInstr_reads_of_other hesc fun cc hd =>
      hjump (mem_jumpBytes_iff.2 ⟨cc, mem_plainTable_of_decodeByte hd⟩)

/-- Settles O37: memory is part of the frame of every step. -/
theorem stepNeverWritesMemory : Obligations.StepNeverWritesMemory := by
  intro cfg s
  obtain ⟨hmem, -⟩ := stepReport_state_frame cfg s
  exact ⟨hmem, fun addr => by rw [hmem]⟩

/-- Settles O17: at the top of memory the address after 0xFFFF is 0x0000. -/
theorem wordReadIsLittleEndian : Obligations.WordReadIsLittleEndian := by
  refine ⟨Memory.read16_toNat, fun m => m.read16_toNat 0xFFFF, fun m addr hlo hhi => ?_⟩
  rw [Memory.read16, hlo, hhi]; rfl

end Machine
end Sys2Proof
end

section
/-!
SUPPORT. The proofs about the decoder and the encoder (`30_encoding.md`): what the two tables answer, that
decoding a list of bytes and encoding an instruction are inverse, and the steps that stop at a byte without
an instruction.
-/
namespace Sys2Proof

/-! ## `RECOGNISED_UNHANDLED` (R68) -/

/-- At most one tag stands for each table and byte, so a member's opcode has the member's tag (R68; log 5). -/
theorem Config.unhandledTag_of_mem {cfg : Config} (hcfg : cfg.wellFormed = true) {u : Unhandled}
    (hu : u ∈ cfg.unhandled) : cfg.unhandledTag u.ext u.byte = some u.tag := by
  obtain ⟨-, -, hnodup⟩ := cfg.wellFormed_iff.1 hcfg
  unfold Config.unhandledTag
  cases hfind : cfg.unhandled.find? (fun v => v.ext == u.ext && v.byte == u.byte) with
  | none => exact absurd (List.find?_eq_none.1 hfind u hu) (by simp)
  | some v =>
    have hkey : v.ext = u.ext ∧ v.byte = u.byte := by simpa using List.find?_some hfind
    have hv : v = u :=
      List.inj_on_of_nodup_map hnodup (List.mem_of_find?_eq_some hfind) hu (Prod.ext hkey.1 hkey.2)
    rw [hv]; rfl

theorem Config.unhandledTag_eq_none_iff {cfg : Config} {ext : Bool} {b : Byte} :
    cfg.unhandledTag ext b = none ↔ ∀ u ∈ cfg.unhandled, ¬(u.ext = ext ∧ u.byte = b) := by
  simp [Config.unhandledTag]

/-- A recognised plain opcode is neither one of the 17 nor the escape byte (R68). -/
theorem Config.byte_not_mem_of_plain {cfg : Config} (hcfg : cfg.wellFormed = true) {u : Unhandled}
    (hu : u ∈ cfg.unhandled) (hplain : u.ext = false) :
    u.byte ≠ cfg.opcodes.escape ∧ u.byte ∉ cfg.opcodes.bytes := by
  obtain ⟨-, hdisjoint, -⟩ := cfg.wellFormed_iff.1 hcfg
  simpa [Unhandled.disjointFrom, hplain] using hdisjoint u hu

/-! ## A byte without a row in the active table (R65 to R68) -/

section
variable {cfg : Config} {b : Byte} {ext : Bool}

theorem decodeByte_of_tag (hrow : ¬(ext = false ∧ b ∈ cfg.opcodes.bytes)) {tag : Tag}
    (h : cfg.unhandledTag ext b = some tag) : decodeByte cfg b ext = .unhandled tag := by
  cases ext with
  | true => rw [decodeByte_extended, h]
  | false => rw [decodeByte_plain_of_not_mem fun hb => hrow ⟨rfl, hb⟩, h]

theorem decodeByte_of_no_tag (hrow : ¬(ext = false ∧ b ∈ cfg.opcodes.bytes))
    (h : cfg.unhandledTag ext b = none) : decodeByte cfg b ext = .error b ext := by
  cases ext with
  | true => rw [decodeByte_extended, h]
  | false => rw [decodeByte_plain_of_not_mem fun hb => hrow ⟨rfl, hb⟩, h]

end

/-! ## Instructions as rows of the plain table (R61, R63, R64) -/

/-- Every term of `Instr` is the row `PREFIX` or completes a descriptor. -/
theorem Instr.eq_prefixed_or_complete (i : Instr) :
    (∃ op, i = .prefixed op) ∨ ∃ (d : Descriptor) (nn : Word), i = d.complete nn := by
  cases i with
  | prefixed op => exact .inl ⟨op, rfl⟩
  | nop => exact .inr ⟨.nop, 0, rfl⟩
  | halt => exact .inr ⟨.halt, 0, rfl⟩
  | addAB => exact .inr ⟨.add .b, 0, rfl⟩
  | addAC => exact .inr ⟨.add .c, 0, rfl⟩
  | addAD => exact .inr ⟨.add .d, 0, rfl⟩
  | addAE => exact .inr ⟨.add .e, 0, rfl⟩
  | addAH => exact .inr ⟨.add .h, 0, rfl⟩
  | addAL => exact .inr ⟨.add .l, 0, rfl⟩
  | addAA => exact .inr ⟨.add .a, 0, rfl⟩
  | incBC => exact .inr ⟨.inc16 .bc, 0, rfl⟩
  | incDE => exact .inr ⟨.inc16 .de, 0, rfl⟩
  | incHL => exact .inr ⟨.inc16 .hl, 0, rfl⟩
  | jpNZ nn => exact .inr ⟨.jp .nz, nn, rfl⟩
  | jp nn => exact .inr ⟨.jp .always, nn, rfl⟩
  | jpZ nn => exact .inr ⟨.jp .z, nn, rfl⟩
  | jpNC nn => exact .inr ⟨.jp .nc, nn, rfl⟩
  | jpC nn => exact .inr ⟨.jp .c, nn, rfl⟩

theorem complete_ne_prefixed (d : Descriptor) (nn : Word) (op : Byte) : d.complete nn ≠ .prefixed op := by
  intro h
  have hd := descriptor_complete d nn
  rw [h] at hd
  cases hd

theorem exists_mem_plainTable (o : Opcodes) (d : Descriptor) : ∃ b, (b, d) ∈ plainTable o := by
  have hd : d ∈ (plainTable o).map Prod.snd := by
    cases d with
    | nop | halt => simp [plainTable]
    | add r => cases r <;> simp [plainTable]
    | inc16 p => cases p <;> simp [plainTable]
    | jp cc => cases cc <;> simp [plainTable]
  simpa using hd

/-- The bytes after the opcode byte of a descriptor's instruction: a jump's target, low byte first (R63). -/
def operandBytes (d : Descriptor) (nn : Word) : List Byte :=
  if d.hasImm16 then [loByte nn, hiByte nn] else []

/-- An instruction is encoded by the byte of its row and its operand bytes (R61, R63, R64). -/
theorem encodeWith_complete_of_mem {cfg : Config} {b : Byte} {d : Descriptor}
    (h : (b, d) ∈ plainTable cfg.opcodes) (nn : Word) :
    encodeWith cfg (d.complete nn) = b :: operandBytes d nn := by
  have hrows : ∀ row ∈ plainTable cfg.opcodes,
      encodeWith cfg (row.2.complete nn) = row.1 :: operandBytes row.2 nn := by
    simp [plainTable, Descriptor.complete, encodeWith, encodeJump, operandBytes, Descriptor.hasImm16]
  exact hrows _ h

/-! ## Decoding a list of bytes -/

theorem decodeExtended_of_tag {cfg : Config} {op : Byte} {tag : Tag}
    (h : cfg.unhandledTag true op = some tag) (rest : List Byte) :
    decodeExtended cfg op rest = .unhandled tag := by
  rw [decodeExtended, decodeByte_of_tag (by simp) h]

theorem decodeExtended_of_no_tag {cfg : Config} {op : Byte} (h : cfg.unhandledTag true op = none)
    (rest : List Byte) : decodeExtended cfg op rest = .instr (.prefixed op) rest := by
  rw [decodeExtended, decodeByte_of_no_tag (by simp) h]

/-- The operand bytes are read back whatever follows them, and nothing else is read as the operands of an
instruction (R63). -/
theorem decodeOperands_eq_instr_iff {d : Descriptor} {bytes rest : List Byte} {i : Instr} :
    decodeOperands d bytes = .instr i rest
      ↔ ∃ nn, i = d.complete nn ∧ bytes = operandBytes d nn ++ rest := by
  cases himm : d.hasImm16 with
  | false =>
    have hzero : ∀ nn, d.complete nn = d.complete 0 := fun nn =>
      (complete_eq_of_not_hasImm16 himm nn).symm
    simp [decodeOperands, operandBytes, himm, hzero, eq_comm]
  | true =>
    simp only [decodeOperands, operandBytes, himm, if_true]
    constructor
    · intro h
      split at h
      · next lo hi rest' =>
        cases h
        exact ⟨concat hi lo, rfl, by simp⟩
      · cases h
      · cases h
    · rintro ⟨nn, rfl, rfl⟩
      simp

section
variable {cfg : Config}

theorem decodeWith_escape (op : Byte) (rest : List Byte) :
    decodeWith cfg (cfg.opcodes.escape :: op :: rest) = decodeExtended cfg op rest := if_pos rfl

theorem decodeWith_of_descriptor {b : Byte} (hesc : b ≠ cfg.opcodes.escape) {d : Descriptor}
    (h : decodeByte cfg b false = .descriptor d) (rest : List Byte) :
    decodeWith cfg (b :: rest) = decodeOperands d rest := by
  simp only [decodeWith, if_neg hesc, h]

/-- What decodes to an instruction: the escape byte and the operand of the row `PREFIX`, or the byte of a
row of the plain table and its operands (R62 to R64). -/
theorem decodeWith_instr_cases {bytes rest : List Byte} {i : Instr}
    (h : decodeWith cfg bytes = .instr i rest) :
    (∃ op, i = .prefixed op ∧ bytes = cfg.opcodes.escape :: op :: rest)
      ∨ ∃ b d nn, (b, d) ∈ plainTable cfg.opcodes ∧ i = d.complete nn
          ∧ bytes = b :: operandBytes d nn ++ rest := by
  unfold decodeWith at h
  split at h
  · cases h
  next b0 tail =>
  split at h
  · next hesc =>
    subst hesc
    split at h
    · cases h
    · next op rest' =>
      unfold decodeExtended at h
      split at h <;> cases h <;> exact .inl ⟨op, rfl, rfl⟩
  · split at h
    · next d hd =>
      obtain ⟨nn, hi, hbytes⟩ := decodeOperands_eq_instr_iff.1 h
      exact .inr ⟨b0, d, nn, mem_plainTable_of_decodeByte hd, hi, by rw [hbytes]; rfl⟩
    · cases h
    · cases h

/-- A completed descriptor decodes from its encoding, whatever follows. -/
theorem decodeWith_encodeWith_complete (ho : cfg.opcodes.wellFormed = true) (d : Descriptor) (nn : Word)
    (rest : List Byte) :
    decodeWith cfg (encodeWith cfg (d.complete nn) ++ rest) = .instr (d.complete nn) rest := by
  obtain ⟨b, hrow⟩ := exists_mem_plainTable cfg.opcodes d
  rw [encodeWith_complete_of_mem hrow, List.cons_append,
    decodeWith_of_descriptor (ne_escape_of_mem_plainTable ho hrow) (decodeByte_plain_of_mem ho hrow)]
  exact decodeOperands_eq_instr_iff.2 ⟨nn, rfl, rfl⟩

end

namespace Machine

/-! ## Steps that stop (R65, R87, R88) -/

section
variable {cfg : Config} {s : State}

/-- A running machine whose fetch is answered by a fault reports it, and nothing is committed (R146; D1,
log 7). -/
theorem stepWith_stepReport_of_fault (hrun : s.halted = false) {f : Fault}
    (hfault : dispatch (fetchInstr cfg s.mem s.pc).1 s = .fault f) :
    stepWith cfg s = .fault f
      ∧ stepReport cfg s
        = { state := s, result := resultOf (.fault f), reads := (fetchInstr cfg s.mem s.pc).2.reads } := by
  have hstep : stepWith cfg s = .fault f := (stepWith_running hrun).trans hfault
  exact ⟨hstep, by rw [stepReport, hstep, stepReads_running hrun]; rfl⟩

variable {m : Memory} {pc : Word}

theorem fetchInstr_of_extended_error (hesc : m.read pc = cfg.opcodes.escape) {b : Byte} {ext : Bool}
    (h : decodeByte cfg (m.read (pc + 1)) true = .error b ext) :
    (fetchInstr cfg m pc).1 = .instr (.prefixed (m.read (pc + 1))) := by
  rw [fetchInstr_eq, if_pos hesc, h]

theorem fetchInstr_of_extended_unhandled (hesc : m.read pc = cfg.opcodes.escape) {tag : Tag}
    (h : decodeByte cfg (m.read (pc + 1)) true = .unhandled tag) :
    (fetchInstr cfg m pc).1 = .unhandled tag := by
  rw [fetchInstr_eq, if_pos hesc, h]

theorem fetchInstr_of_plain_unhandled (hesc : m.read pc ≠ cfg.opcodes.escape) {tag : Tag}
    (h : decodeByte cfg (m.read pc) false = .unhandled tag) :
    (fetchInstr cfg m pc).1 = .unhandled tag := by
  rw [fetchInstr_eq, if_neg hesc, h]

end

/-! ## The statements -/

/-- Settles O29: the meaning of the row is R65's decode error, whatever the state. -/
theorem prefixedAlwaysStops : Obligations.PrefixedAlwaysStops := fun _ _ => rfl

/-- Settles O22: the row `PREFIX` (log 9) by what the configuration says of its operand, every other
instruction by its row of the plain table. -/
theorem decodeOfEncode : Obligations.DecodeOfEncode := by
  intro cfg hcfg i rest
  obtain ⟨ho, -, -⟩ := cfg.wellFormed_iff.1 hcfg
  obtain ⟨op, rfl⟩ | ⟨d, nn, rfl⟩ := i.eq_prefixed_or_complete
  · have hbytes : decodeWith cfg (encodeWith cfg (.prefixed op) ++ rest) = decodeExtended cfg op rest :=
      decodeWith_escape op rest
    rw [hbytes]
    refine ⟨fun hnone => decodeExtended_of_no_tag (hnone op rfl) rest, ?_⟩
    rintro _ tag ⟨⟩ htag
    exact decodeExtended_of_tag htag rest
  · exact ⟨fun _ => decodeWith_encodeWith_complete ho d nn rest,
      fun op _ hop => absurd hop (complete_ne_prefixed d nn op)⟩

/-- Settles O23: both ways to decode to an instruction consume that instruction's encoding. -/
theorem encodeOfDecode : Obligations.EncodeOfDecode := by
  intro cfg bytes i rest h
  obtain ⟨op, rfl, rfl⟩ | ⟨b, d, nn, hrow, rfl, rfl⟩ := decodeWith_instr_cases h
  · rfl
  · rw [encodeWith_complete_of_mem hrow]

/-- Settles O20: a row of the plain table, or else what `RECOGNISED_UNHANDLED` says. -/
theorem decodeIsTotal : Obligations.DecodeIsTotal := by
  intro cfg hcfg
  obtain ⟨ho, -, -⟩ := cfg.wellFormed_iff.1 hcfg
  refine ⟨fun row hrow => decodeByte_plain_of_mem ho hrow, fun b ext hno => ⟨?_, fun hnone => ?_⟩⟩
  · rintro u hu rfl rfl
    exact decodeByte_of_tag hno (Config.unhandledTag_of_mem hcfg hu)
  · exact decodeByte_of_no_tag hno (Config.unhandledTag_eq_none_iff.2 hnone)

/-- Settles O28: the fetch gives the row `PREFIX`, whose meaning is the fault. -/
theorem escapedByteIsDecodeError : Obligations.EscapedByteIsDecodeError := by
  intro cfg s hrun hesc hnone
  have hfetch : (fetchInstr cfg s.mem s.pc).1 = .instr (.prefixed (s.mem.read (s.pc + 1))) :=
    fetchInstr_of_extended_error hesc (decodeByte_of_no_tag (by simp) hnone)
  rw [← fetchInstr_reads_of_escape hesc]
  exact stepWith_stepReport_of_fault hrun (by rw [hfetch]; exact prefixedAlwaysStops _ s)

/-- Settles O30: the entry's byte has no row in the active table, so the fetch answers the entry's tag. -/
theorem unhandledOpcodeIsUnimplemented : Obligations.UnhandledOpcodeIsUnimplemented := by
  intro cfg s u hcfg hu hrun
  have htag := Config.unhandledTag_of_mem hcfg hu
  constructor
  · intro hext hbyte
    obtain ⟨hesc, hbytes⟩ := Config.byte_not_mem_of_plain hcfg hu hext
    rw [hext] at htag
    rw [← hbyte] at htag hesc hbytes
    have hdecode := decodeByte_of_tag (fun h => hbytes h.2) htag
    rw [← fetchInstr_reads_of_other hesc (by simp [hdecode])]
    exact stepWith_stepReport_of_fault hrun (by rw [fetchInstr_of_plain_unhandled hesc hdecode]; rfl)
  · intro hext hesc hbyte
    rw [hext, ← hbyte] at htag
    have hdecode := decodeByte_of_tag (by simp) htag
    rw [← fetchInstr_reads_of_escape hesc]
    exact stepWith_stepReport_of_fault hrun (by rw [fetchInstr_of_extended_unhandled hesc hdecode]; rfl)

/-- Settles O19: the bytes of D3 are the keys of the standard plain table, and the standard machine
recognises no other opcode. -/
theorem standardTablesDecode : Obligations.StandardTablesDecode := by
  have ho : Config.standard.opcodes.wellFormed = true := by decide
  exact ⟨fun row hrow => decodeByte_plain_of_mem ho hrow,
    fun b hb => decodeByte_of_no_tag (fun h => hb h.2) rfl,
    fun b => decodeByte_of_no_tag (by simp) rfl⟩

/-- Settles O21. -/
theorem knownWordsDecode : Obligations.KnownWordsDecode := by
  unfold Obligations.KnownWordsDecode
  decide

end Machine
end Sys2Proof
end

section
/-!
SUPPORT. The proofs about the step engine (`40_step_engine.md`): what a fetch hands to dispatch, the step
beside the manual's pseudocode, which results commit, and what a run of the driving loop is.
-/
namespace Sys2Proof

/-! ## Lengths and operands of instructions (R60, R63, R73) -/

theorem length_complete (d : Descriptor) (nn : Word) :
    (d.complete nn).length = if d.hasImm16 then 3 else 1 := by
  cases d with
  | nop | halt => rfl
  | add r => cases r <;> rfl
  | inc16 p => cases p <;> rfl
  | jp cc => cases cc <;> rfl

namespace Machine

theorem addressesFrom_one (pc : Word) : addressesFrom pc 1 = [pc] := by
  simp [addressesFrom]

theorem addressesFrom_two (pc : Word) : addressesFrom pc 2 = [pc, pc + 1] := by
  simp [addressesFrom, List.range_succ]

theorem addressesFrom_three (pc : Word) : addressesFrom pc 3 = [pc, pc + 1, pc + 2] := by
  simp [addressesFrom, List.range_succ]

/-- The first byte of a window is the byte at its address; the others are the window after it. -/
theorem Memory.window_eq_cons {m : Memory} {addr : Word} {n : Nat} {b : Byte} {rest : List Byte}
    (h : m.window addr n = b :: rest) : m.read addr = b ∧ m.window (addr + 1) (n - 1) = rest := by
  cases n with
  | zero => cases h
  | succ n => exact List.cons.inj h

/-- Where the operand bytes of an instruction stand in memory, the two bytes there complete its descriptor
to that instruction; without operands any two bytes do (R63). -/
theorem complete_of_window {m : Memory} {addr : Word} {n : Nat} {d : Descriptor} {nn : Word}
    {rest : List Byte} (h : m.window addr n = operandBytes d nn ++ rest) :
    d.complete (concat (m.read (addr + 1)) (m.read addr)) = d.complete nn := by
  cases himm : d.hasImm16 with
  | false =>
    exact (complete_eq_of_not_hasImm16 himm _).symm.trans (complete_eq_of_not_hasImm16 himm nn)
  | true =>
    simp only [operandBytes, himm, if_true, List.cons_append, List.nil_append] at h
    obtain ⟨hlo, htail⟩ := Memory.window_eq_cons h
    obtain ⟨hhi, -⟩ := Memory.window_eq_cons htail
    rw [hlo, hhi, concat_hiByte_loByte]

/-! ## What a fetch hands to dispatch, by what the decoder answers (R84 to R89) -/

section
variable {cfg : Config} {m : Memory} {pc : Word}

theorem fetchInstr_of_descriptor (hesc : m.read pc ≠ cfg.opcodes.escape) {d : Descriptor}
    (h : decodeByte cfg (m.read pc) false = .descriptor d) :
    (fetchInstr cfg m pc).1 = .instr (d.complete (concat (m.read (pc + 2)) (m.read (pc + 1)))) := by
  rw [fetchInstr_eq, if_neg hesc, h, add_one_add_one]
  cases himm : d.hasImm16 with
  | false => simpa [himm] using complete_eq_of_not_hasImm16 himm _
  | true => simp [himm]

theorem fetchInstr_of_plain_error (hesc : m.read pc ≠ cfg.opcodes.escape) {b : Byte} {ext : Bool}
    (h : decodeByte cfg (m.read pc) false = .error b ext) :
    (fetchInstr cfg m pc).1 = .error b ext := by
  rw [fetchInstr_eq, if_neg hesc, h]

theorem fetchInstr_reads_of_descriptor (hesc : m.read pc ≠ cfg.opcodes.escape) {d : Descriptor}
    (h : decodeByte cfg (m.read pc) false = .descriptor d) (nn : Word) :
    (fetchInstr cfg m pc).2.reads = addressesFrom pc (d.complete nn).length := by
  rw [length_complete]
  cases d with
  | jp cc => rw [fetchInstr_reads_of_jump hesc h]; exact (addressesFrom_three pc).symm
  | nop | halt | add r | inc16 p =>
    rw [fetchInstr_reads_of_other hesc (by simp [h])]; exact (addressesFrom_one pc).symm

end

/-- The fetch reads exactly the bytes that decode from its counter on: the escape byte and the one after it,
or the byte of a row of the plain table and its operands (R84 to R86). -/
theorem fetchInstr_of_decodeWith_standard {m : Memory} {pc : Word} {n : Nat} {i : Instr}
    {rest : List Byte} (h : decodeWith Config.standard (m.window pc n) = .instr i rest) :
    (fetchInstr Config.standard m pc).1 = .instr i
      ∧ (fetchInstr Config.standard m pc).2.reads = addressesFrom pc i.length := by
  obtain ⟨op, rfl, hwindow⟩ | ⟨b, d, nn, hrow, rfl, hwindow⟩ := decodeWith_instr_cases h
  · obtain ⟨hesc, htail⟩ := Memory.window_eq_cons hwindow
    obtain ⟨rfl, -⟩ := Memory.window_eq_cons htail
    exact ⟨fetchInstr_of_extended_error hesc (decodeByte_of_no_tag (by simp) rfl),
      by rw [fetchInstr_reads_of_escape hesc]; exact (addressesFrom_two pc).symm⟩
  · obtain ⟨rfl, htail⟩ := Memory.window_eq_cons hwindow
    have ho : Config.standard.opcodes.wellFormed = true := by decide
    have hesc := ne_escape_of_mem_plainTable ho hrow
    have hdecode := decodeByte_plain_of_mem ho hrow
    rw [fetchInstr_of_descriptor hesc hdecode, ← add_one_add_one, complete_of_window htail]
    exact ⟨rfl, fetchInstr_reads_of_descriptor hesc hdecode nn⟩

/-- An extended byte is recognised without a handler or a decode error of that byte, never a descriptor
(R65, R68). -/
theorem decodeByte_extended_cases (cfg : Config) (b : Byte) :
    (∃ tag, decodeByte cfg b true = .unhandled tag) ∨ decodeByte cfg b true = .error b true := by
  cases h : cfg.unhandledTag true b with
  | some tag => exact .inl ⟨tag, decodeByte_of_tag (by simp) h⟩
  | none => exact .inr (decodeByte_of_no_tag (by simp) h)

/-! ## The step beside the pseudocode (R90) -/

/-- Each meaning is the pseudocode's handler, once the bytes after the opcode byte are the immediate
(R89, R90; log 8). -/
theorem exec_complete_eq_pseudoHandle (d : Descriptor) (s : State) :
    exec (d.complete (concat (s.mem.read (s.pc + 2)) (s.mem.read (s.pc + 1)))) s
      = .next (pseudoHandle s (s.pc + 1) d) := by
  cases d with
  | nop | halt => rfl
  | add r => cases r <;> rfl
  | inc16 p => cases p <;> rfl
  | jp cc =>
    have hexec : ∀ nn, exec ((Descriptor.jp cc).complete nn) s = .next (s.jumpIf cc nn) := by
      intro nn; cases cc <;> rfl
    have hpc : s.pc + 1 + 1 + 1 = s.pc + 3 := by rw [add_one_add_one, BitVec.add_assoc]; rfl
    rw [hexec, State.jumpIf_eq_setPc, pseudoHandle, hpc, add_one_add_one]
    rfl

/-- Only a next state is the result `OK`. -/
theorem resultOf_eq_ok_iff {o : StepOutcome} : resultOf o = .ok ↔ ∃ t, o = .next t := by
  cases o with
  | next t => simp [resultOf]
  | fault f => cases f <;> simp [resultOf]
  | refused r => cases r <;> simp [resultOf]

section
variable {cfg : Config} {s t : State}

theorem stepReport_of_next (h : stepWith cfg s = .next t) :
    (stepReport cfg s).state = t ∧ (stepReport cfg s).result = .ok := by
  simp [stepReport, h, stateAfter, resultOf]

theorem stepWith_next_of_ok (h : (stepReport cfg s).result = .ok) :
    stepWith cfg s = .next (stepReport cfg s).state := by
  obtain ⟨t, ht⟩ := resultOf_eq_ok_iff.1 h
  rw [(stepReport_of_next ht).1, ht]

/-- A result that is not `OK` commits nothing (R91, R146; D1, log 7). -/
theorem stepReport_state_of_not_ok (h : (stepReport cfg s).result ≠ .ok) :
    (stepReport cfg s).state = s := by
  rcases stepReport_state_cases cfg s with hs | hnext
  · exact hs
  · exact absurd (stepReport_of_next hnext).2 h

/-- At an escape byte the step is the pseudocode's exit after the extended table (R85, R90). -/
theorem stepReport_eq_pseudoFinish_of_escape (hrun : s.halted = false)
    (hesc : s.mem.read s.pc = cfg.opcodes.escape) (p : Word) :
    ((stepReport cfg s).state, (stepReport cfg s).result)
      = pseudoFinish s p (decodeByte cfg (s.mem.read (s.pc + 1)) true) := by
  obtain ⟨tag, hdec⟩ | hdec := decodeByte_extended_cases cfg (s.mem.read (s.pc + 1))
  · obtain ⟨-, hrep⟩ := stepWith_stepReport_of_fault hrun (f := .unimplemented tag)
      (by rw [fetchInstr_of_extended_unhandled hesc hdec]; rfl)
    rw [hrep, hdec]; rfl
  · obtain ⟨-, hrep⟩ := stepWith_stepReport_of_fault hrun
      (f := .decodeError (s.mem.read (s.pc + 1)) true)
      (by rw [fetchInstr_of_extended_error hesc hdec]; rfl)
    rw [hrep, hdec]; rfl

/-- At any other byte the step is the pseudocode's exit after the plain table (R86, R90). -/
theorem stepReport_eq_pseudoFinish_of_plain (hrun : s.halted = false)
    (hesc : s.mem.read s.pc ≠ cfg.opcodes.escape) :
    ((stepReport cfg s).state, (stepReport cfg s).result)
      = pseudoFinish s (s.pc + 1) (decodeByte cfg (s.mem.read s.pc) false) := by
  cases hdec : decodeByte cfg (s.mem.read s.pc) false with
  | descriptor d =>
    have hstep : stepWith cfg s = .next (pseudoHandle s (s.pc + 1) d) := by
      rw [stepWith_running hrun, fetchInstr_of_descriptor hesc hdec]
      exact exec_complete_eq_pseudoHandle d s
    obtain ⟨hstate, hresult⟩ := stepReport_of_next hstep
    rw [hstate, hresult]; rfl
  | unhandled tag =>
    obtain ⟨-, hrep⟩ := stepWith_stepReport_of_fault hrun (f := .unimplemented tag)
      (by rw [fetchInstr_of_plain_unhandled hesc hdec]; rfl)
    rw [hrep]; rfl
  | error b ext =>
    obtain ⟨-, hrep⟩ := stepWith_stepReport_of_fault hrun (f := .decodeError b ext)
      (by rw [fetchInstr_of_plain_error hesc hdec]; rfl)
    rw [hrep]; rfl

end

/-! ## What a step that answers `OK` ran -/

section
variable {cfg : Config} {s t : State}

/-- A step that answers a next state ran one of the 17 opcode bytes (R92). -/
theorem read_mem_bytes_of_next (h : stepWith cfg s = .next t) : s.mem.read s.pc ∈ cfg.opcodes.bytes := by
  obtain ⟨-, i, hfetch, hexec⟩ := stepWith_next h
  obtain ⟨op, rfl⟩ | ⟨d, hrow, -⟩ := fetchInstr_instr_cases hfetch
  · cases hexec
  · exact plainTable_keys cfg.opcodes ▸ List.mem_map_of_mem hrow

/-- A step that leaves HALTED = 1 had the effect of Halt (R27, R101). -/
theorem eq_halt_of_next_halted (h : stepWith cfg s = .next t) (hhalted : t.halted = true) :
    t = (s.setHalted true).advance 1 := by
  obtain ⟨hrun, ⟨-, rfl⟩ | ⟨-, rfl⟩ | ⟨r, -, rfl⟩ | ⟨p, -, rfl⟩ | ⟨cc, -, rfl⟩⟩ :=
    stepWith_next_cases h
  · exact absurd hhalted (by simp [hrun])
  · rfl
  · exact absurd hhalted (by simp [hrun])
  · exact absurd hhalted (by simp [hrun])
  · exact absurd hhalted (by simp [State.jumpIf_eq_setPc, hrun])

/-- After a step that leaves HALTED = 1 the byte just behind PC is Halt's (R27, R101; D17, log 11). -/
theorem read_pc_sub_one_of_next_halted (hcfg : cfg.wellFormed = true) (h : stepWith cfg s = .next t)
    (hhalted : t.halted = true) : t.mem.read (t.pc - 1) = cfg.opcodes.halt := by
  have hbyte : s.mem.read s.pc = cfg.opcodes.halt := (onlyHaltHalts cfg s t hcfg h).1 hhalted
  rw [eq_halt_of_next_halted h hhalted]
  simpa using hbyte

end

/-! ## Runs of the driving loop (R93) -/

/-- The runs of the driving loop within a bound, by their first step. -/
inductive Driven (cfg : Config) : Nat → State → RunReport → Prop where
  | bound (s : State) : Driven cfg 0 s { state := s, executed := 0, outcome := .running }
  | halts {s t : State} (n : Nat) (hstep : stepWith cfg s = .next t) (hhalted : t.halted = true) :
      Driven cfg (n + 1) s { state := t, executed := 1, outcome := .normal }
  | goesOn {n : Nat} {s t : State} {run : RunReport} (hstep : stepWith cfg s = .next t)
      (hrun : t.halted = false) (rest : Driven cfg n t run) :
      Driven cfg (n + 1) s { run with executed := run.executed + 1 }
  | stops {s : State} (n : Nat) (hresult : (stepReport cfg s).result ≠ .ok) :
      Driven cfg (n + 1) s
        { state := s, executed := 0, outcome := .stopped (stepReport cfg s).result }

/-- The driving loop makes such a run. -/
theorem drive_driven (cfg : Config) (n : Nat) (s : State) : Driven cfg n s (drive cfg n s) := by
  induction n generalizing s with
  | zero => exact .bound s
  | succ n ih =>
    rw [drive_succ]
    dsimp only
    split
    · next hok =>
      have hstep := stepWith_next_of_ok hok
      split
      · next hhalted => exact .halts n hstep hhalted
      · next hrun => exact .goesOn hstep (by simpa using hrun) (ih _)
    · next hresult =>
      rw [stepReport_state_of_not_ok hresult]
      exact .stops n hresult

/-- The state after `k` step events. -/
def State.afterSteps (cfg : Config) (s : State) (k : Nat) : State :=
  s.afterAll cfg (List.replicate k .step)

@[simp] theorem State.afterSteps_zero (cfg : Config) (s : State) : s.afterSteps cfg 0 = s := rfl

theorem State.afterSteps_succ_of_next {cfg : Config} {s t : State} (h : stepWith cfg s = .next t)
    (k : Nat) : s.afterSteps cfg (k + 1) = t.afterSteps cfg k := by
  rw [← (stepReport_of_next h).1]; rfl

section
variable {cfg : Config} {n : Nat} {s : State} {run : RunReport}

theorem Driven.state_eq_afterSteps (h : Driven cfg n s run) :
    run.state = s.afterSteps cfg run.executed := by
  induction h with
  | bound s => rfl
  | halts n hstep hhalted => rw [State.afterSteps_succ_of_next hstep, State.afterSteps_zero]
  | goesOn hstep hrun rest ih => rw [State.afterSteps_succ_of_next hstep]; exact ih
  | stops n hresult => rfl

theorem Driven.executed_le (h : Driven cfg n s run) : run.executed ≤ n := by
  induction h with
  | bound s => exact Nat.le_refl 0
  | halts n hstep hhalted => exact Nat.le_add_left 1 n
  | goesOn hstep hrun rest ih => exact Nat.succ_le_succ ih
  | stops n hresult => exact Nat.zero_le _

theorem Driven.executed_eq_of_running (h : Driven cfg n s run) (hout : run.outcome = .running) :
    run.executed = n := by
  induction h with
  | bound s => rfl
  | halts n hstep hhalted => cases hout
  | goesOn hstep hrun rest ih => exact congrArg (· + 1) (ih hout)
  | stops n hresult => cases hout

/-- A normal end is just past a Halt byte (R93; D17, log 11). -/
theorem Driven.at_halt_of_normal (h : Driven cfg n s run) (hcfg : cfg.wellFormed = true)
    (hout : run.outcome = .normal) :
    run.state.halted = true ∧ 0 < run.executed
      ∧ run.state.mem.read (run.state.pc - 1) = cfg.opcodes.halt := by
  induction h with
  | bound s => cases hout
  | halts n hstep hhalted =>
    exact ⟨hhalted, Nat.one_pos, read_pc_sub_one_of_next_halted hcfg hstep hhalted⟩
  | goesOn hstep hrun rest ih =>
    obtain ⟨hhalted, -, hbyte⟩ := ih hout
    exact ⟨hhalted, Nat.succ_pos _, hbyte⟩
  | stops n hresult => cases hout

/-- A stopped run is at a state whose own step gives the result and is not `OK` (R93; D1, log 7). -/
theorem Driven.result_of_stopped (h : Driven cfg n s run) {res : StepResult}
    (hout : run.outcome = .stopped res) :
    (stepReport cfg run.state).result = res ∧ (stepReport cfg run.state).result ≠ .ok := by
  induction h with
  | bound s => cases hout
  | halts n hstep hhalted => cases hout
  | goesOn hstep hrun rest ih => exact ih hout
  | stops n hresult => cases hout; exact ⟨rfl, hresult⟩

/-- Every executed step answers `OK` at an opcode byte of the memory the run started with, and at Halt's
byte exactly as the last step of a normal end (R93, R156). -/
theorem Driven.executed_step (h : Driven cfg n s run) (hcfg : cfg.wellFormed = true) {k : Nat}
    (hk : k < run.executed) :
    (stepReport cfg (s.afterSteps cfg k)).result = .ok
      ∧ s.mem.read (s.afterSteps cfg k).pc ∈ cfg.opcodes.bytes
      ∧ (s.mem.read (s.afterSteps cfg k).pc = cfg.opcodes.halt
          ↔ k + 1 = run.executed ∧ run.outcome = .normal) := by
  induction h generalizing k with
  | bound s => cases hk
  | halts n hstep hhalted =>
    obtain rfl := Nat.lt_one_iff.1 hk
    exact ⟨(stepReport_of_next hstep).2, read_mem_bytes_of_next hstep,
      by simpa using (onlyHaltHalts cfg _ _ hcfg hstep).1 hhalted⟩
  | @goesOn n s t run hstep hrun rest ih =>
    cases k with
    | zero =>
      refine ⟨(stepReport_of_next hstep).2, read_mem_bytes_of_next hstep, fun hbyte => ?_, fun hend => ?_⟩
      · have hhalted : t.halted = true := (onlyHaltHalts cfg s t hcfg hstep).2 hbyte
        rw [hrun] at hhalted; cases hhalted
      · obtain ⟨hlast, hnormal⟩ := hend
        obtain ⟨-, hpos, -⟩ := rest.at_halt_of_normal hcfg hnormal
        exact absurd (Nat.succ.inj hlast) hpos.ne
    | succ k =>
      have hmem : t.mem = s.mem := by
        rw [← (stepReport_of_next hstep).1]; exact (stepReport_state_frame cfg s).1
      obtain ⟨hok, hbytes, hlast⟩ := ih (Nat.lt_of_succ_lt_succ hk)
      rw [State.afterSteps_succ_of_next hstep, ← hmem]
      exact ⟨hok, hbytes, by rw [hlast, Nat.succ_inj]⟩
  | stops n hresult => cases hk

/-- A run short of its bound ended normally or at a step that is not `OK` (R93). -/
theorem Driven.ended_of_executed_lt (h : Driven cfg n s run) (hlt : run.executed < n) :
    run.outcome = .normal
      ∨ ((stepReport cfg run.state).result ≠ .ok
          ∧ run.outcome = .stopped (stepReport cfg run.state).result) := by
  cases hout : run.outcome with
  | running => exact absurd (h.executed_eq_of_running hout) hlt.ne
  | normal => exact .inl rfl
  | stopped res =>
    obtain ⟨rfl, hnot⟩ := h.result_of_stopped hout
    exact .inr ⟨hnot, rfl⟩

end

/-! ## The statements -/

/-- Settles O34: the halted check first, then the exit after the table that the byte at PC selects. -/
theorem stepIsThePseudocode : Obligations.StepIsThePseudocode := by
  intro cfg s
  unfold pseudoStep
  split
  · next hhalted =>
    rw [stepReport, stepWith_halted hhalted]; rfl
  · next hrun =>
    have hrun : s.halted = false := by simpa using hrun
    dsimp only
    split
    · next hesc => exact stepReport_eq_pseudoFinish_of_escape hrun hesc _
    · next hesc => exact stepReport_eq_pseudoFinish_of_plain hrun hesc

/-- Settles O59: by the first step of the run, for each of the three ways it can stand. -/
theorem runsEndAtHaltOrAtTheError : Obligations.RunsEndAtHaltOrAtTheError := by
  intro cfg n s hcfg
  have hrun := drive_driven cfg n s
  refine ⟨hrun.at_halt_of_normal hcfg, fun res hout => ?_, hrun.executed_eq_of_running⟩
  obtain ⟨hresult, hnot⟩ := hrun.result_of_stopped hout
  exact ⟨hresult, stepReport_state_of_not_ok hnot⟩

/-- Settles O60: by the first step of the run, whose rest starts with the same memory. -/
theorem runIsTheStepsItExecuted : Obligations.RunIsTheStepsItExecuted := by
  intro cfg n s hcfg
  have hrun := drive_driven cfg n s
  exact ⟨hrun.state_eq_afterSteps, hrun.executed_le, fun k hk => hrun.executed_step hcfg hk,
    hrun.ended_of_executed_lt⟩

/-- Settles O31: the state is the one before, so the second request is the first. -/
theorem onlyOkCommits : Obligations.OnlyOkCommits := by
  intro cfg s hnot
  have hstate : (stepReport cfg s).state = s := stepReport_state_of_not_ok hnot
  exact ⟨hstate, by rw [hstate]⟩

/-- Settles O51: by the constructor; only the row `PREFIX` has no next state (log 9). -/
theorem exactlyTheInstructionsComplete : Obligations.ExactlyTheInstructionsComplete := by
  intro i s
  cases i with
  | prefixed op => simp [prefixedAlwaysStops op s, Instr.wellFormed]
  | nop | halt | incBC | incDE | incHL => exact ⟨fun _ => rfl, fun _ => ⟨_, rfl⟩⟩
  | addAB | addAC | addAD | addAE | addAH | addAL | addAA => exact ⟨fun _ => rfl, fun _ => ⟨_, rfl⟩⟩
  | jpNZ nn | jp nn | jpZ nn | jpNC nn | jpC nn => exact ⟨fun _ => rfl, fun _ => ⟨_, rfl⟩⟩

/-- Settles O18: a fetched word is two fetched bytes, the second from the counter after the first. -/
theorem fetchByteAndFetchWord : Obligations.FetchByteAndFetchWord := by
  intro m k
  have hp : (fetchWord m k).2.p = k.p + 2 := add_one_add_one k.p
  have hreads : (fetchWord m k).2.reads = k.reads ++ [k.p] ++ [k.p + 1] := rfl
  exact ⟨rfl, BitVec.toNat_add k.p 1, rfl, concat_toNat _ _, by rw [hp]; exact BitVec.toNat_add k.p 2,
    by rw [hreads, List.append_assoc]; rfl⟩

/-- Settles O24: the fetch gives the decoded instruction, and a running machine dispatches it. -/
theorem stepRunsTheDecodedInstruction : Obligations.StepRunsTheDecodedInstruction := by
  intro s n i rest hrun hdecode
  obtain ⟨hinstr, hreads⟩ := fetchInstr_of_decodeWith_standard hdecode
  rw [step, stepWith_running hrun, stepReads_running hrun, hinstr]
  exact ⟨rfl, hreads⟩

end Machine
end Sys2Proof
end

section
/-!
SUPPORT. The proofs about No-op and Halt (`41_nop_halt.md`): the frame they share with the jumps, the step
at a row of the plain table, and the run over a memory of No-ops.
-/
namespace Sys2Proof.Machine

/-! ## What No-op, Halt and the jumps leave alone -/

theorem exec_nop (s : State) : exec .nop s = .next (s.advance 1) := rfl

theorem exec_halt (s : State) : exec .halt s = .next ((s.setHalted true).advance 1) := rfl

theorem exec_complete_jp (cc : Cond) (nn : Word) (s : State) :
    exec ((Descriptor.jp cc).complete nn) s = .next (s.jumpIf cc nn) := by
  cases cc <;> rfl

/-- Beside No-op and Halt these are the jump descriptors, completed with the target (R64, R130). -/
theorem nop_or_halt_or_jump_of_mem {nn : Word} {i : Instr}
    (h : i ∈ [Instr.nop, .halt, .jp nn, .jpNZ nn, .jpZ nn, .jpNC nn, .jpC nn]) :
    i = .nop ∨ i = .halt ∨ ∃ cc, i = (Descriptor.jp cc).complete nn := by
  simp only [List.mem_cons, List.not_mem_nil, or_false] at h
  obtain rfl | rfl | rfl | rfl | rfl | rfl | rfl := h
  · exact .inl rfl
  · exact .inr (.inl rfl)
  · exact .inr (.inr ⟨.always, rfl⟩)
  · exact .inr (.inr ⟨.nz, rfl⟩)
  · exact .inr (.inr ⟨.z, rfl⟩)
  · exact .inr (.inr ⟨.nc, rfl⟩)
  · exact .inr (.inr ⟨.c, rfl⟩)

/-! ## The step at a row of the plain table -/

/-- A running machine at the byte of a row dispatches the row's descriptor, completed with the two bytes
after it (R85, R86, R89). -/
theorem stepWith_of_mem_plainTable {cfg : Config} (hcfg : cfg.wellFormed = true) {s : State}
    (hrun : s.halted = false) {d : Descriptor} (hrow : (s.mem.read s.pc, d) ∈ plainTable cfg.opcodes) :
    stepWith cfg s = exec (d.complete (concat (s.mem.read (s.pc + 2)) (s.mem.read (s.pc + 1)))) s := by
  obtain ⟨ho, -, -⟩ := cfg.wellFormed_iff.1 hcfg
  rw [stepWith_running hrun, fetchInstr_of_descriptor (ne_escape_of_mem_plainTable ho hrow)
    (decodeByte_plain_of_mem ho hrow)]
  rfl

theorem stepWith_of_nop_byte {cfg : Config} (hcfg : cfg.wellFormed = true) {s : State}
    (hrun : s.halted = false) (hbyte : s.mem.read s.pc = cfg.opcodes.nop) :
    stepWith cfg s = .next (s.advance 1) :=
  stepWith_of_mem_plainTable hcfg hrun (d := .nop) (by simp [hbyte, plainTable])

/-! ## The run over No-ops (R93) -/

/-- After a step that answers a running state the loop goes on from it, one instruction further. -/
theorem drive_succ_of_next {cfg : Config} {s t : State} (h : stepWith cfg s = .next t)
    (hrun : t.halted = false) (n : Nat) :
    drive cfg (n + 1) s = { drive cfg n t with executed := (drive cfg n t).executed + 1 } := by
  obtain ⟨hstate, hresult⟩ := stepReport_of_next h
  simp [drive_succ, hstate, hresult, hrun]

theorem State.advance_advance (s : State) (v w : Word) : (s.advance v).advance w = s.advance (v + w) := by
  simp [State.advance, BitVec.add_assoc]

@[simp] theorem State.advance_zero (s : State) : s.advance 0#16 = s := by
  simp [State.advance, State.setPc]

/-- Where every address holds No-op's byte, a run of any bound executes No-ops alone (R93, R100). -/
theorem drive_of_nop_memory {cfg : Config} (hcfg : cfg.wellFormed = true) (n : Nat) {s : State}
    (hrun : s.halted = false) (hmem : ∀ addr, s.mem.read addr = cfg.opcodes.nop) :
    drive cfg n s
      = { state := s.advance (BitVec.ofNat 16 n), executed := n, outcome := .running } := by
  induction n generalizing s with
  | zero => simp [drive]
  | succ n ih =>
    have hstep : stepWith cfg s = .next (s.advance 1) := stepWith_of_nop_byte hcfg hrun (hmem s.pc)
    have hcount : (1 : Word) + BitVec.ofNat 16 n = BitVec.ofNat 16 (n + 1) := by
      rw [BitVec.add_comm, BitVec.ofNat_add]
      rfl
    rw [drive_succ_of_next hstep hrun, ih (s := s.advance 1) hrun hmem, State.advance_advance, hcount]

/-! ## The statements -/

/-- Settles O50: all seven move the counter, and Halt sets HALTED before it does. -/
theorem nopHaltJumpFrame : Obligations.NopHaltJumpFrame := by
  intro nn s t i hi hexec
  obtain rfl | rfl | ⟨cc, rfl⟩ := nop_or_halt_or_jump_of_mem hi
  · cases (exec_nop s).symm.trans hexec
    simp
  · cases (exec_halt s).symm.trans hexec
    simp
  · cases (exec_complete_jp cc nn s).symm.trans hexec
    simp [State.jumpIf_eq_setPc]

/-- Settles O58: 0x00 is No-op's byte in the standard assignment (D3, log 4). -/
theorem zeroMemoryRunsNops : Obligations.ZeroMemoryRunsNops := by
  intro n s hrun hmem
  exact drive_of_nop_memory (cfg := Config.standard) (by decide) n hrun hmem

/-- Settles O38: advancing by one writes PC alone. -/
theorem nopAdvancesPc : Obligations.NopAdvancesPc := exec_nop

/-- Settles O39: setting HALTED and advancing by one write those two fields alone. -/
theorem haltSetsHalted : Obligations.HaltSetsHalted := exec_halt

end Sys2Proof.Machine
end

section
/-!
SUPPORT. The proofs about 8-bit Add (`42_add8.md`): the state it leaves by R110's formulas, its carries seen
from the result, and the seven Adds as one instruction over the operands that D4 admits.
-/
namespace Sys2Proof.Machine

/-! ## The carries of Add, seen from the result (R110, R118) -/

/-- The result's bit 4 differs from the sum of the operands' by the carry that comes in there. -/
theorem add8_hf (a v : Byte) : (add8 a v).2.hf = (a ^^^ v ^^^ (add8 a v).1).getLsbD 4 := by
  have hcarry : (a ^^^ v ^^^ (a + v)).getLsbD 4 = BitVec.carry 4 a v false := by
    rw [BitVec.getLsbD_xor, BitVec.getLsbD_xor, BitVec.getLsbD_add (by decide)]
    cases a.getLsbD 4 <;> cases v.getLsbD 4 <;> simp
  rw [add8_fst, hcarry, add8_snd, BitVec.carry]
  simp [Nat.lt_iff_add_one_le]

theorem add8_cf_iff (a v : Byte) : (add8 a v).2.cf = true ↔ (add8 a v).1.toNat < a.toNat := by
  rw [add8_fst, add8_snd, BitVec.toNat_add, decide_eq_true_iff]
  omega

theorem add8_comm (a v : Byte) : add8 a v = add8 v a := by
  simp only [add8, Nat.add_comm]

/-- Doubling a byte carries out of the low nibble when bit 3 is set. -/
theorem add8_self_hf (a : Byte) : (add8 a a).2.hf = a.getLsbD 3 := by
  rw [add8_snd, ← BitVec.testBit_toNat, Nat.testBit_eq_decide_div_mod_eq, decide_eq_decide]
  omega

/-- Doubling a byte carries out of bit 7 when that bit is set. -/
theorem add8_self_cf (a : Byte) : (add8 a a).2.cf = a.getLsbD 7 := by
  rw [add8_snd, ← BitVec.testBit_toNat, Nat.testBit_eq_decide_div_mod_eq, decide_eq_decide]
  omega

theorem add8_self_toNat (a : Byte) : (add8 a a).1.toNat = 2 * a.toNat % 256 := by
  rw [add8_fst, BitVec.toNat_add, Nat.two_mul]

/-! ## The state after an Add -/

/-- R110 as a state: A, the four flags and PC by the formulas from the state before, the sum reduced modulo
256, the rest as before. -/
def State.addFormulas (s : State) (v : Byte) : State :=
  { s with
    a := BitVec.ofNat 8 ((s.a.toNat + v.toNat) % 256)
    flags := {
      zf := decide ((s.a.toNat + v.toNat) % 256 = 0)
      nf := false
      hf := decide (s.a.toNat % 16 + v.toNat % 16 > 15)
      cf := decide (s.a.toNat + v.toNat > 255) }
    pc := s.pc + 1 }

/-- Adding a register to A and advancing is R110 with the byte that register held. -/
theorem State.addToA_advance_one (s : State) (r : Reg8) :
    (s.addToA r).advance 1 = s.addFormulas (s.reg8 r) := by
  have ha : (add8 s.a (s.reg8 r)).1 = BitVec.ofNat 8 ((s.a.toNat + (s.reg8 r).toNat) % 256) :=
    BitVec.eq_of_toNat_eq (by simp [add8])
  have hzf : s.a + s.reg8 r = 0 ↔ (s.a.toNat + (s.reg8 r).toNat) % 256 = 0 := by
    rw [← BitVec.toNat_inj, BitVec.toNat_add]; rfl
  have hflags : (add8 s.a (s.reg8 r)).2 = (s.addFormulas (s.reg8 r)).flags := by
    simp only [add8_snd, hzf]; rfl
  calc (s.addToA r).advance 1
      = { s with a := (add8 s.a (s.reg8 r)).1, flags := (add8 s.a (s.reg8 r)).2, pc := s.pc + 1 } := rfl
    _ = s.addFormulas (s.reg8 r) := by rw [ha, hflags]; rfl

theorem State.setFlags_reg8_of_ne (s : State) (f : Flags) {q : Reg8} (h : q ≠ .f) :
    (s.setFlags f).reg8 q = s.reg8 q := by
  cases q with
  | f => exact absurd rfl h
  | a | b | c | d | e | h | l => rfl

/-- Adding to A writes A and F alone among the registers (R110). -/
theorem State.addToA_reg8_of_ne (s : State) (r : Reg8) {q : Reg8} (ha : q ≠ .a) (hf : q ≠ .f) :
    (s.addToA r).reg8 q = s.reg8 q :=
  (State.setFlags_reg8_of_ne _ _ hf).trans (State.setReg8_reg8_of_ne _ _ _ ha)

/-! ## The seven Adds, by operand (R70, R111 to R117) -/

/-- The operands Add accepts (D4, log 16). -/
def addOperands : List AddOperand := [.b, .c, .d, .e, .h, .l, .a]

/-- The opcode byte of the Add with an operand (R64). -/
def addByte (o : Opcodes) : AddOperand → Byte
  | .b => o.addAB
  | .c => o.addAC
  | .d => o.addAD
  | .e => o.addAE
  | .h => o.addAH
  | .l => o.addAL
  | .a => o.addAA

theorem addByte_mem_plainTable (o : Opcodes) (r : AddOperand) : (addByte o r, .add r) ∈ plainTable o := by
  cases r <;> simp [plainTable, addByte]

theorem addForms_eq_map :
    addForms = addOperands.map fun r => ((Descriptor.add r).complete 0, addOperandReg r) := rfl

theorem exec_complete_add (r : AddOperand) (nn : Word) (s : State) :
    exec ((Descriptor.add r).complete nn) s = .next ((s.addToA (addOperandReg r)).advance 1) := by
  cases r <;> rfl

/-- A running machine at an Add's byte completes with R110's state, having read that byte alone. -/
theorem stepReport_of_add_byte {cfg : Config} (hcfg : cfg.wellFormed = true) {s : State}
    (hrun : s.halted = false) {r : AddOperand} (hbyte : s.mem.read s.pc = addByte cfg.opcodes r) :
    stepReport cfg s
      = { state := s.addFormulas (s.reg8 (addOperandReg r)), result := .ok, reads := [s.pc] } := by
  obtain ⟨ho, -, -⟩ := cfg.wellFormed_iff.1 hcfg
  have hrow : (s.mem.read s.pc, .add r) ∈ plainTable cfg.opcodes :=
    hbyte ▸ addByte_mem_plainTable cfg.opcodes r
  have hstep : stepWith cfg s = .next (s.addFormulas (s.reg8 (addOperandReg r))) := by
    rw [stepWith_of_mem_plainTable hcfg hrun hrow, exec_complete_add, State.addToA_advance_one]
  have hreads : stepReads cfg s = [s.pc] := by
    rw [stepReads_running hrun]
    exact fetchInstr_reads_of_other (ne_escape_of_mem_plainTable ho hrow)
      (by simp [decodeByte_plain_of_mem ho hrow])
  simp only [stepReport, hstep, hreads, stateAfter, resultOf]

/-! ## The statements -/

/-- Settles O41: the rows are the operands of Add, each with its byte and the value of its register. -/
theorem stepAtAddByte : Obligations.StepAtAddByte := by
  intro cfg s hcfg hrun
  have hall : ∀ row ∈ addOperands.map fun r => (addByte cfg.opcodes r, s.reg8 (addOperandReg r)),
      s.mem.read s.pc = row.1 →
        stepReport cfg s = { state := s.addFormulas row.2, result := .ok, reads := [s.pc] } :=
    List.forall_mem_map.2 fun _ _ hbyte => stepReport_of_add_byte hcfg hrun hbyte
  exact hall

/-- Settles O42: the carries by the lemmas on `add8`, those of `ADD A,A` by doubling. -/
theorem addCarriesFromResult : Obligations.AddCarriesFromResult := by
  refine ⟨fun a v => ⟨add8_hf a v, add8_cf_iff a v, add8_comm a v⟩, fun s t hexec => ?_⟩
  cases (exec_complete_add .a 0 s).symm.trans hexec
  exact ⟨add8_self_toNat s.a, add8_self_hf s.a, add8_self_cf s.a⟩

/-- Settles O43: adding to A and moving the counter write A, F and PC. -/
theorem addFrame : Obligations.AddFrame := by
  intro s t row hrow hexec
  rw [addForms_eq_map] at hrow
  obtain ⟨r, -, rfl⟩ := List.mem_map.1 hrow
  cases (exec_complete_add r 0 s).symm.trans hexec
  exact ⟨fun q ha hf => (State.advance_reg8 _ _ _).trans (State.addToA_reg8_of_ne s _ ha hf),
    rfl, rfl, fun _ => rfl⟩

/-- Settles O40: the rows are the operands of Add, each with its instruction and the value of its
register. -/
theorem addComputesSumAndFlags : Obligations.AddComputesSumAndFlags := by
  intro s
  have hall : ∀ row ∈ addOperands.map fun r =>
        ((Descriptor.add r).complete 0, s.reg8 (addOperandReg r)),
      exec row.1 s = .next (s.addFormulas row.2) :=
    List.forall_mem_map.2 fun r _ => by rw [exec_complete_add, State.addToA_advance_one]
  exact hall

end Sys2Proof.Machine
end

section
/-!
SUPPORT. The proofs about 16-bit Increment (`43_inc16.md`): the carry between the halves of a pair, what the
shared increment does to a pair and leaves alone, and the three Increments as one instruction over the
operands that D5 admits.
-/
namespace Sys2Proof

/-- Adding one to a word carries into the high byte only from a low byte of 0xFF (R120). -/
theorem concat_add_one (hi : Byte) {lo : Byte} (h : lo ≠ 0xFF) : concat hi lo + 1 = concat hi (lo + 1) := by
  apply BitVec.eq_of_toNat_eq
  rw [BitVec.toNat_add, concat_toNat, concat_toNat]
  bv_omega

namespace Machine

/-! ## The shared increment of a pair (R120, R124) -/

/-- The high half of any pair changes only when the low half was 0xFF (R120). -/
theorem State.incPair_reg8_hi_of_lo_ne (s : State) (p : Pair) (h : s.reg8 (pairLo p) ≠ 0xFF) :
    (s.incPair p).reg8 (pairHi p) = s.reg8 (pairHi p) := by
  rw [State.incPair, State.setPair_reg8_hi, State.pair, concat_add_one _ h, hiByte_concat]

theorem State.incPair_reg8_of_ne (s : State) (p : Pair) {q : Reg8} (hhi : q ≠ pairHi p)
    (hlo : q ≠ pairLo p) : (s.incPair p).reg8 q = s.reg8 q :=
  State.setPair_reg8_of_ne s p _ hhi hlo

theorem State.incPair_flags_of_ne (s : State) {p : Pair} (hp : p ≠ .af) : (s.incPair p).flags = s.flags :=
  State.setPair_flags_of_ne _ _ _ hp

theorem State.incPair_pair_same (s : State) {p : Pair} (hp : p ≠ .af) :
    (s.incPair p).pair p = s.pair p + 1 :=
  State.setPair_pair_same s hp _

/-- A general pair is incremented with 16-bit wraparound (R120). -/
theorem State.incPair_pair_toNat (s : State) {p : Pair} (hp : p ≠ .af) :
    ((s.incPair p).pair p).toNat = ((s.pair p).toNat + 1) % 2 ^ 16 := by
  rw [State.incPair_pair_same s hp, BitVec.toNat_add]
  rfl

theorem Flags.toByte_ne_255 (f : Flags) : f.toByte ≠ 0xFF := by
  intro h
  exact absurd (h ▸ f.toByte_low_nibble) (by decide)

/-- One added to F falls in its low nibble, which the flags do not keep (R16, R124). -/
theorem Flags.fromByte_toByte_add_one (f : Flags) : Flags.fromByte (f.toByte + 1) = f := by
  obtain ⟨z, n, h, c⟩ := f
  revert z n h c; decide

theorem State.setPair_af_concat (s : State) (hi lo : Byte) :
    s.setPair .af (concat hi lo) = { s with a := hi, flags := Flags.fromByte lo } := by
  rw [State.setPair, hiByte_concat, loByte_concat]
  rfl

/-! ## The step at a row of the plain table, as the driver sees it -/

/-- Where the row's instruction completes, a running machine reports `OK`, the state it leaves, and the
addresses of its bytes (R46, R92). -/
theorem stepReport_of_mem_plainTable {cfg : Config} (hcfg : cfg.wellFormed = true) {s t : State}
    (hrun : s.halted = false) {d : Descriptor} (hrow : (s.mem.read s.pc, d) ∈ plainTable cfg.opcodes)
    (hexec : exec (d.complete (concat (s.mem.read (s.pc + 2)) (s.mem.read (s.pc + 1)))) s = .next t) :
    stepReport cfg s
      = { state := t, result := .ok, reads := addressesFrom s.pc (d.complete 0).length } := by
  obtain ⟨ho, -, -⟩ := cfg.wellFormed_iff.1 hcfg
  have hstep : stepWith cfg s = .next t := (stepWith_of_mem_plainTable hcfg hrun hrow).trans hexec
  have hreads : stepReads cfg s = addressesFrom s.pc (d.complete 0).length := by
    rw [stepReads_running hrun]
    exact fetchInstr_reads_of_descriptor (ne_escape_of_mem_plainTable ho hrow)
      (decodeByte_plain_of_mem ho hrow) 0
  simp only [stepReport, hstep, hreads, stateAfter, resultOf]

/-! ## The three Increments, by operand (R70, R121 to R123) -/

/-- The operands Increment accepts (D5, log 16). -/
def incOperands : List IncOperand := [.bc, .de, .hl]

/-- The opcode byte of the Increment with an operand (R64). -/
def incByte (o : Opcodes) : IncOperand → Byte
  | .bc => o.incBC
  | .de => o.incDE
  | .hl => o.incHL

theorem incByte_mem_plainTable (o : Opcodes) (p : IncOperand) : (incByte o p, .inc16 p) ∈ plainTable o := by
  cases p <;> simp [plainTable, incByte]

theorem incOperandPair_ne_af (p : IncOperand) : incOperandPair p ≠ .af := by cases p <;> decide

theorem exec_complete_inc16 (p : IncOperand) (nn : Word) (s : State) :
    exec ((Descriptor.inc16 p).complete nn) s = .next ((s.incPair (incOperandPair p)).advance 1) := by
  cases p <;> rfl

/-- A running machine at an Increment's byte completes with the pair incremented and the counter advanced,
having read that byte alone. -/
theorem stepReport_of_inc_byte {cfg : Config} (hcfg : cfg.wellFormed = true) {s : State}
    (hrun : s.halted = false) {p : IncOperand} (hbyte : s.mem.read s.pc = incByte cfg.opcodes p) :
    stepReport cfg s
      = { state := (s.incPair (incOperandPair p)).advance 1, result := .ok, reads := [s.pc] } := by
  have hrow : (s.mem.read s.pc, .inc16 p) ∈ plainTable cfg.opcodes :=
    hbyte ▸ incByte_mem_plainTable cfg.opcodes p
  rw [stepReport_of_mem_plainTable hcfg hrun hrow (exec_complete_inc16 p _ s), length_complete]
  exact congrArg _ (addressesFrom_one s.pc)

/-! ## The statements -/

/-- Settles O44: the rows are the operands of Increment, each with its instruction and the two halves of its
pair. -/
theorem incrementsPairAndNoFlag : Obligations.IncrementsPairAndNoFlag := by
  intro s row hrow
  have hrow' : row ∈ incOperands.map fun p =>
      ((Descriptor.inc16 p).complete 0, pairHi (incOperandPair p), pairLo (incOperandPair p)) := hrow
  obtain ⟨p, -, rfl⟩ := List.mem_map.1 hrow'
  refine ⟨_, exec_complete_inc16 p 0 s, ?_⟩
  simp only [State.advance_reg8, ← State.pair_toNat]
  exact ⟨s.incPair_pair_toNat (incOperandPair_ne_af p), s.incPair_reg8_hi_of_lo_ne _,
    congrArg (· + 1) (State.incPair_pc _ _), s.incPair_flags_of_ne (incOperandPair_ne_af p),
    fun _ => s.incPair_reg8_of_ne _, State.incPair_sp _ _, State.incPair_halted _ _,
    fun addr => congrArg (·.read addr) (State.incPair_mem _ _)⟩

/-- Settles O45: the rows are the operands of Increment, each with its byte and its pair; the state after
is the incremented one, the counter advanced. -/
theorem stepAtIncrementByte : Obligations.StepAtIncrementByte := by
  intro cfg s hcfg hrun row hrow hbyte
  have hrow' : row ∈ incOperands.map fun p => (incByte cfg.opcodes p, incOperandPair p) := hrow
  obtain ⟨p, -, rfl⟩ := List.mem_map.1 hrow'
  have hp : incOperandPair p ≠ .af := incOperandPair_ne_af p
  refine ⟨_, stepReport_of_inc_byte hcfg hrun hbyte, ?_⟩
  simp only [State.advance_pair, State.advance_reg8, State.advance_flags]
  refine ⟨s.incPair_pair_toNat hp, ?_, s.incPair_flags_of_ne hp, s.incPair_reg8_hi_of_lo_ne _⟩
  rw [s.incPair_pair_same hp, State.advance, State.incPair_pc]
  rfl

/-- Settles O46: bits 3 to 0 of F are zero, so adding one carries nowhere and the masked write drops it. -/
theorem incrementOfAfChangesNothing : Obligations.IncrementOfAfChangesNothing := by
  intro s
  calc s.incPair .af
      = s.setPair .af (concat s.a s.flags.toByte + 1) := rfl
    _ = s.setPair .af (concat s.a (s.flags.toByte + 1)) := by
        rw [concat_add_one _ s.flags.toByte_ne_255]
    _ = { s with a := s.a, flags := Flags.fromByte (s.flags.toByte + 1) } := s.setPair_af_concat _ _
    _ = s := by rw [Flags.fromByte_toByte_add_one]

end Machine
end Sys2Proof
end

section
/-!
SUPPORT. The proofs about Conditional Jump (`44_jump.md`): what each condition tests, the five jumps as one
instruction over the conditions of R71, and the run from a state whose step answers that state.
-/
namespace Sys2Proof.Machine

/-! ## The conditions (R131) -/

theorem condHolds_always (f : Flags) : condHolds .always f = true := rfl

theorem condHolds_z_iff (f : Flags) : condHolds .z f = true ↔ f.zf = true := Iff.rfl

theorem condHolds_nz_iff (f : Flags) : condHolds .nz f = true ↔ f.zf = false :=
  iff_of_eq (Bool.not_eq_true' f.zf)

theorem condHolds_c_iff (f : Flags) : condHolds .c f = true ↔ f.cf = true := Iff.rfl

theorem condHolds_nc_iff (f : Flags) : condHolds .nc f = true ↔ f.cf = false :=
  iff_of_eq (Bool.not_eq_true' f.cf)

/-! ## The five jumps, by condition (R71, R133 to R137) -/

/-- The conditions a jump can have (R71). -/
def jumpConds : List Cond := [.always, .nz, .z, .nc, .c]

/-- The opcode byte of the jump with a condition (R64). -/
def jumpByte (o : Opcodes) : Cond → Byte
  | .always => o.jp
  | .nz => o.jpNZ
  | .z => o.jpZ
  | .nc => o.jpNC
  | .c => o.jpC

theorem jumpByte_mem_plainTable (o : Opcodes) (cc : Cond) : (jumpByte o cc, .jp cc) ∈ plainTable o := by
  cases cc <;> simp [plainTable, jumpByte]

/-- A jump moves the counter past its three bytes or to its target (R132). -/
theorem State.jumpIf_pc_cases (s : State) (cc : Cond) (nn : Word) :
    (s.jumpIf cc nn).pc = s.pc + 3 ∨ (s.jumpIf cc nn).pc = nn := by
  rw [State.jumpIf_eq_setPc, State.setPc_pc]
  split
  · exact .inr rfl
  · exact .inl rfl

/-- A jump answers the state before with another counter, and nothing else changed (R130, R132). -/
theorem exec_complete_jp_setPc (cc : Cond) (nn : Word) (s : State) :
    exec ((Descriptor.jp cc).complete nn) s
      = .next (s.setPc (if condHolds cc s.flags then nn else s.pc + 3)) := by
  rw [exec_complete_jp, State.jumpIf_eq_setPc]

/-- A jump taken to its own address answers the state before (R130 (c)). -/
theorem exec_jp_self (s : State) : exec (.jp s.pc) s = .next s := exec_complete_jp_setPc .always s.pc s

/-- A running machine at a jump's byte completes with the counter moved alone, having read all three bytes
whether or not the jump is taken (R130, R132). -/
theorem stepReport_of_jump_byte {cfg : Config} (hcfg : cfg.wellFormed = true) {s : State}
    (hrun : s.halted = false) {cc : Cond} (hbyte : s.mem.read s.pc = jumpByte cfg.opcodes cc) :
    stepReport cfg s
      = { state := s.setPc (if condHolds cc s.flags
            then concat (s.mem.read (s.pc + 2)) (s.mem.read (s.pc + 1)) else s.pc + 3)
          result := .ok
          reads := [s.pc, s.pc + 1, s.pc + 2] } := by
  have hrow : (s.mem.read s.pc, .jp cc) ∈ plainTable cfg.opcodes :=
    hbyte ▸ jumpByte_mem_plainTable cfg.opcodes cc
  rw [stepReport_of_mem_plainTable hcfg hrun hrow (exec_complete_jp_setPc cc _ s), length_complete]
  exact congrArg _ (addressesFrom_three s.pc)

/-! ## The run from a fixed point of the step (R93) -/

/-- Where the step of a running machine answers the state it started from, a run uses up any bound there. -/
theorem drive_of_next_self {cfg : Config} {s : State} (hrun : s.halted = false)
    (hstep : stepWith cfg s = .next s) (n : Nat) :
    drive cfg n s = { state := s, executed := n, outcome := .running } := by
  induction n with
  | zero => rfl
  | succ n ih => rw [drive_succ_of_next hstep hrun, ih]

/-- The encoding of an instruction, standing at PC, decodes there to that instruction (R60, R73). -/
theorem step_of_window_eq_encode {s : State} {n : Nat} {i : Instr} (hrun : s.halted = false)
    (hwindow : s.mem.window s.pc n = encode i) : step s = exec i s := by
  have hdecode : decodeWith Config.standard (s.mem.window s.pc n) = .instr i [] := by
    obtain ⟨hinstr, -⟩ := decodeOfEncode Config.standard (by decide) i []
    rw [hwindow, encode, ← List.append_nil (encodeWith _ i)]
    exact hinstr fun _ _ => rfl
  exact (stepRunsTheDecodedInstruction s n i [] hrun hdecode).1

/-! ## The statements -/

/-- Settles O49: the rows are the conditions of a jump, each with its byte and whether it holds; the target is
the word after the byte, high byte last. -/
theorem stepAtJumpByte : Obligations.StepAtJumpByte := by
  intro cfg s hcfg hrun row hrow hbyte
  have hrow' : row ∈ jumpConds.map fun cc => (jumpByte cfg.opcodes cc, condHolds cc s.flags) := hrow
  obtain ⟨cc, -, rfl⟩ := List.mem_map.1 hrow'
  exact ⟨concat (s.mem.read (s.pc + 2)) (s.mem.read (s.pc + 1)), concat_toNat _ _,
    stepReport_of_jump_byte hcfg hrun hbyte⟩

/-- Settles O54: by the row of the byte at PC; every row but the jumps' advances by one. -/
theorem onlyJumpsTransferControl : Obligations.OnlyJumpsTransferControl := by
  intro cfg s t hstep
  obtain ⟨-, ⟨-, rfl⟩ | ⟨-, rfl⟩ | ⟨r, -, rfl⟩ | ⟨p, -, rfl⟩ | ⟨cc, hrow, rfl⟩⟩ :=
    stepWith_next_cases hstep
  · exact ⟨fun _ => rfl, .inl rfl⟩
  · exact ⟨fun _ => rfl, .inl rfl⟩
  · exact ⟨fun _ => rfl, .inl rfl⟩
  · have hpc : ((s.incPair (incOperandPair p)).advance 1).pc = s.pc + 1 := by simp
    exact ⟨fun _ => hpc, .inl hpc⟩
  · exact ⟨fun hno => absurd (mem_jumpBytes_iff.2 ⟨cc, hrow⟩) hno, .inr (s.jumpIf_pc_cases cc _)⟩

/-- Settles O57: the step runs the jump encoded at PC, whose target is the counter it already has. -/
theorem jumpToSelfLoopsForEver : Obligations.JumpToSelfLoopsForEver := by
  intro s n hrun hwindow
  have hstep : step s = .next s := (step_of_window_eq_encode hrun hwindow).trans (exec_jp_self s)
  exact ⟨hstep, drive_of_next_self hrun hstep n⟩

/-- Settles O47: ALWAYS, and the two flags each asked for being set and for being clear. -/
theorem conditionsTestOneFlag : Obligations.ConditionsTestOneFlag := fun f =>
  ⟨condHolds_always f, condHolds_z_iff f, condHolds_nz_iff f, condHolds_c_iff f, condHolds_nc_iff f⟩

/-- Settles O48: each form is a jump with its condition, which its flag decides. -/
theorem jumpSetsPcAlone : Obligations.JumpSetsPcAlone := by
  intro nn s
  refine ⟨exec_complete_jp_setPc .always nn s, ?_, exec_complete_jp_setPc .z nn s, ?_,
    exec_complete_jp_setPc .c nn s⟩
  · simp only [← condHolds_nz_iff]
    exact exec_complete_jp_setPc .nz nn s
  · simp only [← condHolds_nc_iff]
    exact exec_complete_jp_setPc .nc nn s

end Sys2Proof.Machine
end

section
/-!
SUPPORT. The proofs about exceptions (`60_exceptions.md`): the report of a halted machine, the stop at an
undefined byte, what a step can answer, and the step after the supplier has mended the byte at PC.
-/
namespace Sys2Proof.Machine

/-! ## A step that is rejected (R81, R143) -/

/-- The report of a halted machine is the rejection: the same state and no access (R81; D2, log 6). -/
theorem stepReport_of_halted {cfg : Config} {s : State} (h : s.halted = true) :
    stepReport cfg s = { state := s, result := .halted, reads := [] } := by
  have hreads : stepReads cfg s = [] := by simp [stepReads, h]
  simp only [stepReport, stepWith_halted h, hreads, stateAfter, resultOf]

/-- Only a running machine gets a result other than `HALTED`. -/
theorem running_of_result_ne_halted {cfg : Config} {s : State}
    (h : (stepReport cfg s).result ≠ .halted) : s.halted = false :=
  Bool.eq_false_iff.2 fun hhalted => h (congrArg Report.result (stepReport_of_halted hhalted))

/-! ## The step at one of the 17 opcode bytes (R64, R89) -/

/-- Under a well-formed configuration a running machine at one of the 17 opcode bytes completes. -/
theorem stepWith_next_of_mem_bytes {cfg : Config} (hcfg : cfg.wellFormed = true) {s : State}
    (hrun : s.halted = false) (hbyte : s.mem.read s.pc ∈ cfg.opcodes.bytes) :
    ∃ t, stepWith cfg s = .next t := by
  rw [← plainTable_keys] at hbyte
  obtain ⟨⟨b, d⟩, hrow, rfl⟩ := List.mem_map.1 hbyte
  exact ⟨_, (stepWith_of_mem_plainTable hcfg hrun hrow).trans (exec_complete_eq_pseudoHandle d s)⟩

/-- A running machine at Halt's byte completes with HALTED set and the counter advanced, having read that
byte alone (R101; D17, log 11). -/
theorem stepReport_of_halt_byte {cfg : Config} (hcfg : cfg.wellFormed = true) {s : State}
    (hrun : s.halted = false) (hbyte : s.mem.read s.pc = cfg.opcodes.halt) :
    stepReport cfg s = { state := (s.setHalted true).advance 1, result := .ok, reads := [s.pc] } := by
  have hrow : (s.mem.read s.pc, .halt) ∈ plainTable cfg.opcodes := by simp [hbyte, plainTable]
  rw [stepReport_of_mem_plainTable hcfg hrun hrow (exec_halt s), length_complete]
  exact congrArg _ (addressesFrom_one s.pc)

/-! ## The statements -/

/-- Settles O27: the byte has no row and no tag, so the fetch ends in the error after one read. -/
theorem undefinedByteIsDecodeError : Obligations.UndefinedByteIsDecodeError := by
  intro cfg s hrun hesc hbytes hnone
  have hdecode : decodeByte cfg (s.mem.read s.pc) false = .error (s.mem.read s.pc) false :=
    decodeByte_of_no_tag (fun h => hbytes h.2) hnone
  rw [← fetchInstr_reads_of_other hesc (by simp [hdecode])]
  exact stepWith_stepReport_of_fault hrun (by rw [fetchInstr_of_plain_error hesc hdecode]; rfl)

/-- Settles O32: a running machine stands at the escape byte, at one of the 17 opcode bytes or at an
undefined byte; the standard configuration has no tag for any of them (D7, log 5). -/
theorem stepAnswersAreTheManuals : Obligations.StepAnswersAreTheManuals := by
  intro s
  cases hrun : s.halted with
  | true => exact .inl ⟨rfl, stepWith_halted hrun⟩
  | false =>
    refine .inr ⟨rfl, ?_⟩
    by_cases hesc : s.mem.read s.pc = Config.standard.opcodes.escape
    · exact .inr ⟨_, _, (escapedByteIsDecodeError Config.standard s hrun hesc rfl).1⟩
    by_cases hbyte : s.mem.read s.pc ∈ Config.standard.opcodes.bytes
    · exact .inl (stepWith_next_of_mem_bytes (by decide) hrun hbyte)
    · exact .inr ⟨_, _, (undefinedByteIsDecodeError Config.standard s hrun hesc hbyte rfl).1⟩

/-- Settles O33: the error left the state as it was and running, so after the write the machine stands, at
the same PC, at Halt's byte. -/
theorem supplierRecoversFromDecodeError : Obligations.SupplierRecoversFromDecodeError := by
  intro s b ext herr
  have hstate : (stepReport Config.standard s).state = s := stepReport_state_of_not_ok (by simp [herr])
  have hrun : s.halted = false := running_of_result_ne_halted (cfg := Config.standard) (by simp [herr])
  have hbyte : (s.supplierWrite s.pc 0x76).mem.read s.pc = 0x76 := by
    simp [State.supplierWrite, Memory.read_write]
  rw [hstate]
  exact stepReport_of_halt_byte (s := s.supplierWrite s.pc 0x76) (by decide) hrun hbyte

/-- Settles O26. -/
theorem haltedStepIsRejected : Obligations.HaltedStepIsRejected := fun _ _ hhalted =>
  ⟨stepWith_halted hhalted, stepReport_of_halted hhalted⟩

end Sys2Proof.Machine
end

section
/-!
SUPPORT. The proofs about the whole machine: its invariant at reset, along every step and list of events
(`10_state.md`, `20_memory.md`), the canonical memory as data, and the step at an instruction the supplier
has placed (`30_encoding.md`).
-/
namespace Sys2Proof

/-- Decoding for the standard machine is `decodeWith` where that answers an instruction. -/
theorem decode_eq_some_iff {bytes rest : List Byte} {i : Instr} :
    decode bytes = some (i, rest) ↔ decodeWith Config.standard bytes = .instr i rest := by
  unfold decode
  cases decodeWith Config.standard bytes <;> simp

theorem decodeTableWord_eq_some_iff {nbits w : Nat} {i : Instr} :
    decodeTableWord nbits w = some i
      ↔ ∃ rest, decodeWith Config.standard (tableBytes nbits w) = .instr i rest := by
  simp [decodeTableWord, ← decode_eq_some_iff]

namespace Machine

/-! ## The cells of a canonical memory -/

/-- Where addresses rise, each cell is the one its address reads. -/
theorem cellAt_of_mem {k : Nat} {v : Byte} {cells : List Host.Cell}
    (hrising : cells.Pairwise (fun x y => x.1 < y.1)) (h : (k, v) ∈ cells) : cellAt k cells = v := by
  induction cells with
  | nil => cases h
  | cons head rest ih =>
    obtain ⟨hhead, hrest⟩ := List.pairwise_cons.1 hrising
    rcases List.mem_cons.1 h with rfl | h
    · exact if_pos rfl
    · exact (if_neg (hhead _ h).ne).trans (ih hrest h)

/-- An address that does not read as unlisted has a cell. -/
theorem mem_of_cellAt_ne_unlisted {k : Nat} {cells : List Host.Cell}
    (h : cellAt k cells ≠ Memory.unlisted) : (k, cellAt k cells) ∈ cells := by
  induction cells with
  | nil => exact absurd rfl h
  | cons head rest ih =>
    by_cases hk : head.1 = k
    · simp [cellAt, ← hk]
    · simp only [cellAt, hk, if_false] at h ⊢
      exact List.mem_cons_of_mem _ (ih h)

/-- The cells of a canonical memory are its addresses that do not read as unlisted, with their bytes. -/
theorem Memory.mem_cells_iff {m : Memory} (h : m.wf) {cell : Host.Cell} :
    cell ∈ m.cells ↔ ∃ addr : Word, m.read addr ≠ Memory.unlisted ∧ cell = (addr.toNat, m.read addr) := by
  obtain ⟨hrising, hcells⟩ := h
  constructor
  · intro hcell
    obtain ⟨hbound, hlisted⟩ := hcells cell hcell
    have haddr : (BitVec.ofNat 16 cell.1).toNat = cell.1 := by
      rw [BitVec.toNat_ofNat, Nat.mod_eq_of_lt hbound]
    have hread : m.read (BitVec.ofNat 16 cell.1) = cell.2 := by
      rw [Memory.read, haddr, cellAt_of_mem hrising hcell]
    exact ⟨BitVec.ofNat 16 cell.1, by rwa [hread], by rw [haddr, hread]⟩
  · rintro ⟨addr, hlisted, rfl⟩
    exact mem_of_cellAt_ne_unlisted hlisted

/-- A list with addresses rising is determined by which cells it has. -/
theorem cells_eq_of_mem_iff {xs ys : List Host.Cell} (hxs : xs.Pairwise (fun x y => x.1 < y.1))
    (hys : ys.Pairwise (fun x y => x.1 < y.1)) (h : ∀ cell, cell ∈ xs ↔ cell ∈ ys) : xs = ys := by
  have nodup_of_rising {zs : List Host.Cell} (hzs : zs.Pairwise (fun x y => x.1 < y.1)) : zs.Nodup :=
    hzs.imp fun hlt heq => hlt.ne (congrArg Prod.fst heq)
  have hperm : xs.Perm ys := (List.perm_ext_iff_of_nodup (nodup_of_rising hxs) (nodup_of_rising hys)).2 h
  exact hperm.eq_of_pairwise (fun _ _ _ _ hlt hgt => absurd hgt hlt.asymm) hxs hys

/-! ## Bytes stored from an address on (R42, R48) -/

/-- Storing bytes leaves alone every address that is not one of theirs. -/
theorem Memory.read_writeBytes_of_length_le (bytes : List Byte) (m : Memory) {addr other : Word}
    (h : bytes.length ≤ (other - addr).toNat) : (m.writeBytes addr bytes).read other = m.read other := by
  induction bytes generalizing m addr with
  | nil => rfl
  | cons v rest ih =>
    rw [List.length_cons] at h
    have hrest : rest.length ≤ (other - (addr + 1)).toNat := by bv_omega
    have hne : other ≠ addr := by bv_omega
    calc ((m.write addr v).writeBytes (addr + 1) rest).read other
        = (m.write addr v).read other := ih _ hrest
      _ = m.read other := by rw [Memory.read_write, if_neg hne]

/-- Bytes that fit into the address space are read back where they were stored. -/
theorem Memory.window_writeBytes (bytes : List Byte) (m : Memory) (addr : Word)
    (h : bytes.length ≤ 2 ^ 16) : (m.writeBytes addr bytes).window addr bytes.length = bytes := by
  induction bytes generalizing m addr with
  | nil => rfl
  | cons v rest ih =>
    rw [List.length_cons] at h
    have hread : ((m.write addr v).writeBytes (addr + 1) rest).read addr = v := by
      rw [Memory.read_writeBytes_of_length_le _ _ (by bv_omega), Memory.read_write, if_pos rfl]
    exact congrArg₂ List.cons hread (ih _ _ (by omega))

/-- The bytes of a placed table word are those at PC. -/
theorem State.withFetchWord_window (s : State) (nbits w : Nat) :
    (s.withFetchWord nbits w).mem.window (s.withFetchWord nbits w).pc 3 = tableBytes nbits w :=
  Memory.window_writeBytes (tableBytes nbits w) s.mem s.pc (show 3 ≤ 2 ^ 16 by decide)

theorem State.withFetchWord_halted (s : State) (nbits w : Nat) :
    (s.withFetchWord nbits w).halted = false := rfl

/-! ## The invariant -/

/-- F is a view of the four flags, whose byte has no low nibble in any state: what a state has to keep is
the canonical form of its memory (R13, R15). -/
theorem State.inv_iff_mem_wf (s : State) : s.Inv ↔ s.mem.wf :=
  and_iff_left s.flags.toByte_low_nibble

theorem State.construct_inv_iff (init : Init) (surface : Memory) :
    (State.construct init surface).Inv ↔ surface.wf := State.inv_iff_mem_wf _

/-- An event keeps the invariant; a reset needs no state before it, and a canonical surface (R31, R55). -/
theorem State.after_inv (cfg : Config) {s : State} (hs : s.Inv) {ev : Event}
    (hreset : ∀ init surface, ev = .reset init surface → surface.wf) : (s.after cfg ev).Inv := by
  rw [State.inv_iff_mem_wf] at hs ⊢
  cases ev with
  | step =>
    obtain ⟨hmem, -⟩ := stepReport_state_frame cfg s
    exact hmem ▸ hs
  | reset init surface => exact hreset init surface rfl
  | supplierWrite addr v => exact State.wf_supplierWrite hs addr v

/-! ## The statements -/

/-- Settles O4: what the step ran leaves memory alone. -/
theorem stepKeepsInvariant : Obligations.StepKeepsInvariant := by
  intro s t hstep hs
  rw [State.inv_iff_mem_wf] at hs ⊢
  obtain ⟨-, i, -, hexec⟩ := stepWith_next hstep
  obtain ⟨hmem, -⟩ := exec_frame hexec
  exact hmem ▸ hs

/-- Settles O5: each event keeps the invariant, so the list does. -/
theorem eventsKeepInvariant : Obligations.EventsKeepInvariant := by
  intro cfg events s hs hresets
  refine State.afterAll_keeps (P := State.Inv) (fun ev hev t ht => ?_) hs
  exact State.after_inv cfg ht fun init surface heq => hresets init surface (heq ▸ hev)

/-- Settles O16: which cells a canonical memory lists is decided by what its addresses read. -/
theorem canonicalMemoriesThatReadAlikeAreEqual : Obligations.CanonicalMemoriesThatReadAlikeAreEqual := by
  intro m n hm hn hread
  have hcells : m.cells = n.cells := cells_eq_of_mem_iff hm.1 hn.1 fun cell => by
    simp only [Memory.mem_cells_iff hm, Memory.mem_cells_iff hn, hread]
  cases m; cases n; exact congrArg Memory.mk hcells

/-- Settles O25: the machine is running and the window at PC is the placed bytes. -/
theorem placedWordIsTheNextInstruction : Obligations.PlacedWordIsTheNextInstruction := by
  intro s nbits w i hword
  obtain ⟨rest, hdecode⟩ := decodeTableWord_eq_some_iff.1 hword
  rw [← s.withFetchWord_window] at hdecode
  exact (stepRunsTheDecodedInstruction _ 3 i rest (s.withFetchWord_halted nbits w) hdecode).1

/-- Settles O2: the reset registers are zero bytes, F included, and every pair is two of them. -/
theorem resetStateIsAllZero : Obligations.ResetStateIsAllZero := by
  have hreg : ∀ r, State.reset.reg8 r = 0 := by intro r; cases r <;> rfl
  refine ⟨rfl, hreg, fun p => ?_, rfl, rfl, rfl, fun _ => rfl⟩
  rw [State.pair, hreg, hreg]; rfl

/-- Settles O3: the empty memory is canonical, and `Reset` keeps the surface it is given. -/
theorem invariantAtReset : Obligations.InvariantAtReset :=
  ⟨(State.inv_iff_mem_wf _).2 Memory.wf_reset, fun init surface => (State.construct_inv_iff init surface).2⟩

end Machine
end Sys2Proof
end
